-- ==== Sys2Proof/Word.lean ====
section
/-! DEFINITION. The word type of a WAHX instance: W bits, W = 32 or 64 (00_scope R2, R6).
What a word's fields mean (run flag, fill flag, run length) is in Machine/Operands.lean. -/

namespace Sys2Proof

/-- The two word widths a WAHX instance may have (R6). -/
inductive Width where
  | w32
  | w64
deriving DecidableEq, Repr

/-- `W`, the word width in bits (R6). -/
def Width.bits : Width → Nat
  | .w32 => 32
  | .w64 => 64

@[simp] theorem Width.bits_w32 : Width.w32.bits = 32 := rfl
@[simp] theorem Width.bits_w64 : Width.w64.bits = 64 := rfl

/-- A W-bit word: the contents of ARG, RESULT and of one buffer slot (R11, R12, R53). -/
abbrev Word (wd : Width) := BitVec wd.bits

end Sys2Proof
end

