-- ==== Sys2Proof/Config.lean ====
section
/-! DEFINITION. What an instance of the block fixes (the open parameters of 92_eei_decisions.md) and the one
value the spec leaves free (the contents of unspecified buffer slots). -/

namespace Sys2Proof

/-- The three word buffers (R28, R29), distinct storage (R66). -/
inductive Buf where
  | A
  | B
  | R
deriving DecidableEq, Repr

namespace Config

/-- `HOST_BYTE_ORDER`: the byte order of a host's serialized copy of a word, outside the block (R54, D32). DESIGN
CHOICE (log entry 17), unsafe: the spec leaves the parameter open and lists no values of it (91_not_in_source.md N3);
the model has the two orders `little` and `big` and no mixed one. -/
inductive ByteOrder where
  | little
  | big
deriving DecidableEq, Repr

/-- The open parameters of one instance: `W` (R6), `DEPTH` (R8), `WAHX_BASE` (R56), `HOST_BYTE_ORDER` (R54).
They never change while the machine runs. The fifth open parameter, `RESET_SIGNAL`, is the platform's (R230): it is
the event `HostAction.reset`, not a field (log entry 16). -/
structure Params where
  width : Width
  depth : Nat
  base : Nat
  hostByteOrder : ByteOrder
deriving DecidableEq, Repr

/-- The range R8 gives `DEPTH`: no instance has parameters outside it. -/
abbrev Params.Ok (p : Params) : Prop := 2 ≤ p.depth ∧ p.depth ≤ 32768

/-- DESIGN CHOICE (log entry 1), unsafe only for a claim about `State.reset` alone: the instance `WAHX-W32-D64`
that R1 names as its example and 95_test_vectors.md takes where a vector says nothing else. -/
def exampleParams : Params := { width := .w32, depth := 64, base := 0, hostByteOrder := .little }

/-- The value of slot `slot` of buffer `b` while it is unspecified (R33, R126, U8): a free value, one for each
draw `epoch` of that buffer. It has no body, so nothing can be proved of it but that equal arguments give
equal words, which is R126's "two such reads ... return the same value" (log entry 4, safe). -/
opaque staleWord (wd : Width) (b : Buf) (epoch slot : Nat) : Word wd

end Config

end Sys2Proof
end

