-- ==== Sys2Proof/Syntax.lean ====
section
/-! DEFINITION. The commands: one constructor for each of the 22 rows of spec/opcode_table.json (R84). -/

namespace Sys2Proof

/-- A command. `i` is the slot number of WRITE_WORD and READ_WORD (R82); no other command has an operand in its
word. Operands in ARG are read when the command executes (R83). -/
inductive Instr where
  | nop
  | clearA
  | clearB
  | clearR
  | writeWordA (i : Nat)
  | writeWordB (i : Nat)
  | readWordA (i : Nat)
  | readWordB (i : Nat)
  | readWordR (i : Nat)
  | insertA
  | insertB
  | mergeOr
  | mergeAnd
  | moveRA
  | moveRB
  | clsIsRun
  | clsRunLen
  | clsRunOnes
  | clsMaxRun
  | clsPosInWord
  | clsWordsNeeded
  | clsBase
deriving DecidableEq, Repr

end Sys2Proof
end

