-- ==== Sys2Proof/Machine/State.lean ====
section
/-! DEFINITION. The machine's state (10_state.md), as plain data, and its value after reset (R40). -/

namespace Sys2Proof.Machine

open Sys2Proof.Config (Params)

/-- The fault codes of R200, the values STATUS.CODE can hold: "8 to 15 are never produced" (R25). -/
inductive Code where
  | ok
  | invalidArg
  | capacity
  | bound
  | length
  | malformed
  | index
  | illegal
deriving DecidableEq, Repr

/-- The fields of STATUS (R25). Bit 3, REALLOC (bit 8) and bits 31:9 are hardwired 0 and hold nothing;
`statusWord` gives the register as the host reads it. -/
structure Status where
  busy : Bool
  err : Bool
  ovr : Bool
  code : Code
deriving DecidableEq, Repr

/-- The determined slots of a buffer: (slot number, word) pairs, slot numbers strictly rising. The block has no
bytes (R53, R54), so a cell is a whole word (log entry 5). -/
abbrev Memory (wd : Width) := List (Nat × Word wd)

/-- A word buffer (R28, R29). A slot that `mem` does not list is unspecified and reads as the free value
`Config.staleWord` of the draw `epoch` (R33, R126; log entry 4). `epoch` is the model's own counter. -/
structure Buffer (wd : Width) where
  mem : Memory wd
  epoch : Nat
deriving DecidableEq, Repr

/-- The five host registers (R56). -/
inductive HostReg where
  | cmd
  | arg
  | result
  | status
  | cfg
deriving DecidableEq, Repr

/-- What can happen at the block's boundary: a register access by the host, its `wait` loop (R93), the
platform's reset event (R230), or an access by another host (R221). Addresses are the platform's byte
addresses, `bits` is the width of the access, `value` is the data on the bus. DESIGN CHOICE (log entry 16): the open
parameter RESET_SIGNAL (source, polarity and duration of reset, U11) has no value here; the event `reset` stands
for it, and is over within one turn. -/
inductive HostAction where
  | write (addr bits : Nat) (value : BitVec 64)
  | read (addr bits : Nat)
  | wait
  | reset
  | otherHost
deriving DecidableEq, Repr

/-- Which agent a turn belongs to (R5, R236). -/
inductive Turn where
  | host
  | engine
deriving DecidableEq, Repr

/-- What a performed host action did, with the value written or read zero-extended to 64 bits. -/
inductive HostEvent where
  | wrote (reg : HostReg) (value : BitVec 64)
  | got (reg : HostReg) (value : BitVec 64)
  | wasReset
deriving DecidableEq, Repr

/-- How the model stops. The block itself never stops: its faults are STATUS codes (R214). -/
inductive Fault where
  /-- Raised by `step` in a state whose DEPTH is outside the range of R8: no instance of the block is in such a
  state. Safe: the model stops where there is no hardware (log entry 8). -/
  | noSuchInstance
deriving DecidableEq, Repr

/-- What the model gives no meaning. -/
inductive Refusal where
  /-- Raised by `exec`'s arm of an instruction that has no meaning yet (none is left). Safe. -/
  | notModelled (mnemonic : String)
  /-- Raised by a host access of another width, at an offset that is not a register's, or outside the block:
  "a model refuses it (it has no meaning)" (R57, U24). Safe (log entry 9). -/
  | accessOutsideInterface
  /-- Raised by an access of a second host (R221, U29). Safe (log entry 9). -/
  | secondHost
deriving DecidableEq, Repr

/-- The whole state (R20). `params` holds the instance's open parameters, which no step writes; CFG is computed
from them (R26). `host`, `schedule` and `trace` are the model's own: what the host still does, whose turn
it is, and what the host has done (log entries 2, 3, 12). -/
structure State where
  params : Params
  /-- ARG (R22). -/
  arg : Word params.width
  /-- RESULT (R23). -/
  result : Word params.width
  /-- STATUS (R25). -/
  status : Status
  /-- The accepted command word (R34). -/
  cmdLatch : BitVec 32
  /-- The snapshot of ARG taken at acceptance (R34). -/
  argLatch : Word params.width
  /-- Buffer A (R28). -/
  bufA : Buffer params.width
  /-- Buffer B (R28). -/
  bufB : Buffer params.width
  /-- Buffer R (R29). -/
  bufR : Buffer params.width
  /-- Every fault code any command reported, oldest first; no step clears it (R214). -/
  faultLog : List Code
  host : List HostAction
  schedule : List Turn
  trace : List HostEvent
deriving DecidableEq, Repr

/-- STATUS = 0 (R40). -/
def Status.reset : Status := { busy := false, err := false, ovr := false, code := .ok }

/-- A buffer after reset: slot 0 holds 1, every other slot is unspecified (R40). -/
def Buffer.reset (wd : Width) : Buffer wd := { mem := [(0, 1)], epoch := 0 }

/-- The instance with parameters `p` right after reset (R40, R230). The latch is empty (R40: "none"), held as 0
(log entry 6); nothing has run, so the fault log and the trace are empty. -/
def State.resetOf (p : Params) : State where
  params := p
  arg := 0
  result := 0
  status := Status.reset
  cmdLatch := 0
  argLatch := 0
  bufA := Buffer.reset p.width
  bufB := Buffer.reset p.width
  bufR := Buffer.reset p.width
  faultLog := []
  host := []
  schedule := []
  trace := []

/-- The machine right after reset: the instance `Config.exampleParams` (log entry 1). -/
def State.reset : State := State.resetOf Config.exampleParams

end Sys2Proof.Machine
end

