-- ==== Sys2Proof/Machine/Flags.lean ====
section
/-! DEFINITION. STATUS and CFG as the host reads them, and the three updates of STATUS (R21, R25, R211). -/

namespace Sys2Proof.Machine

open Sys2Proof.Config (Params)

/-- The number of a fault code (R200). -/
def Code.num : Code → Nat
  | .ok => 0
  | .invalidArg => 1
  | .capacity => 2
  | .bound => 3
  | .length => 4
  | .malformed => 5
  | .index => 6
  | .illegal => 7

/-- STATUS as a 32-bit word: BUSY bit 0, ERR bit 1, OVR bit 2, CODE bits 7:4; bit 3, REALLOC (bit 8) and bits
31:9 read 0 (R25). -/
def statusWord (st : Status) : BitVec 32 :=
  BitVec.ofNat 32 (st.busy.toNat + 2 * st.err.toNat + 4 * st.ovr.toNat + 16 * st.code.num)

/-- CFG as a 32-bit word: W in bits 7:0, DEPTH in bits 23:8, bits 31:24 read 0 (R26). -/
def cfgWord (p : Params) : BitVec 32 := BitVec.ofNat 32 (p.width.bits + 256 * (p.depth % 65536))

/-- A CMD write is accepted: `BUSY <- 1`, `OVR <- 0` (R21). -/
def Status.accept (st : Status) : Status := { st with busy := true, ovr := false }

/-- A CMD write is dropped: `OVR <- 1` (R211). -/
def Status.drop (st : Status) : Status := { st with ovr := true }

/-- A command completes: `BUSY <- 0`, `CODE <- code`, `ERR <- (code != 0)` (R25). OVR stays (R211). -/
def Status.finish (st : Status) (c : Code) : Status :=
  { st with busy := false, err := decide (c ≠ .ok), code := c }

end Sys2Proof.Machine
end

