-- ==== Sys2Proof/Machine/Operands.lean ====
section
/-! DEFINITION. The constants of R7, the fields of a WAH word (R70 to R75), and the operand forms of ARG (R83):
raw word, or signed position. -/

namespace Sys2Proof.Machine

/-- `BASE = W - 1`, "bit-width of W minus 1" (R7, R107). -/
def base (wd : Width) : Nat := wd.bits - 1

/-- `MAXRUN = 2^(BASE-1) - 1`, the largest run one word encodes, also `wordcount_mask` (R7, R104). -/
def maxRun (wd : Width) : Nat := 2 ^ (base wd - 1) - 1

/-- `MAXPOS = 2^(W-2) - 1` (R7, R108). -/
def maxPos (wd : Width) : Nat := 2 ^ (wd.bits - 2) - 1

/-- `ceil(a / b)` as R12 defines it. -/
def ceilDiv (a b : Nat) : Nat := (a + b - 1) / b

/-- `MAXUNIT = ceil(MAXPOS / BASE)` (R7). -/
def maxUnit (wd : Width) : Nat := ceilDiv (maxPos wd) (base wd)

/-- `ALLONES = 2^BASE - 1` (R7). -/
def allOnes (wd : Width) : Word wd := BitVec.ofNat wd.bits (2 ^ base wd - 1)

/-- `RUNFLAG = 2^(W-1)` (R7). -/
def runFlag (wd : Width) : Word wd := BitVec.ofNat wd.bits (2 ^ (wd.bits - 1))

/-- `FILLFLAG = 2^(W-2)` (R7). -/
def fillFlag (wd : Width) : Word wd := BitVec.ofNat wd.bits (2 ^ (wd.bits - 2))

variable {wd : Width}

/-- `is_run(w) = w[W-1]`, "`w < 0` (top bit set)" (R70, R73). -/
def isRun (w : Word wd) : Bool := w.getLsbD (wd.bits - 1)

/-- `run_length(w) = w[W-3:0] = w & wordcount_mask` (R73). -/
def runLen (w : Word wd) : Nat := w.toNat % 2 ^ (wd.bits - 2)

/-- `run_is_ones(w) = w[W-2]` (R73). -/
def runOnes (w : Word wd) : Bool := w.getLsbD (wd.bits - 2)

/-- `MkRun(f, n) = RUNFLAG | (f << (W-2)) | n`, used only with `1 <= n <= MAXRUN` (R73, R161, R191). -/
def mkRun (f : Bool) (n : Nat) : Word wd :=
  runFlag wd ||| (if f then fillFlag wd else 0) ||| BitVec.ofNat wd.bits n

/-- The units a word covers: `run_length` for a run, 1 for a literal (R145, R171). -/
def span (w : Word wd) : Nat := if isRun w then runLen w else 1

/-- `FillWord(f)`: the unit value a run of fill flag `f` repeats (R110). -/
def fillWord (wd : Width) (f : Bool) : Word wd := if f then allOnes wd else 0

/-- `1 << k`, the literal with bit `k` set (R144). -/
def bitWord (wd : Width) (k : Nat) : Word wd := (1 : Word wd) <<< k

/-- A position operand: `p = signed_W(ARG)`, two's complement (R12, R83). -/
def position (w : Word wd) : Int := w.toInt

/-- `ValidPos(p)`: `1 <= p <= MAXPOS` (R108). -/
def validPos (wd : Width) (p : Int) : Bool := decide (1 ≤ p) && decide (p ≤ (maxPos wd : Int))

/-- `ceil(p / BASE)`, the unit number of a position, from 1 (R106, R111, R144). -/
def unitOf (wd : Width) (p : Nat) : Nat := ceilDiv p (base wd)

/-- `(p - 1) mod BASE`, the bit of a position inside its unit (R111, R144). -/
def bitOf (wd : Width) (p : Nat) : Nat := (p - 1) % base wd

/-- A truth value as a word: `zext_W` of one bit (R12). -/
def ofBit (wd : Width) (b : Bool) : Word wd := if b then 1 else 0

end Sys2Proof.Machine
end

