-- ==== Sys2Proof/Machine/Ops.lean ====
section
/-! DEFINITION. The named operations over buffers and registers (R13), completing a command with or without a
fault (R25, R209), and reset (R230). The block takes no traps and has no return from one (R212, R213): a fault is
`State.complete` with its code. -/

namespace Sys2Proof.Machine

variable {wd : Width}

/-! ### Slots -/

/-- The word listed at slot `i`. -/
def Memory.find (i : Nat) : Memory wd → Option (Word wd)
  | [] => none
  | (j, v) :: m => if i = j then some v else Memory.find i m

/-- Lists `v` at slot `i`, keeping slot numbers strictly rising. -/
def Memory.put (i : Nat) (v : Word wd) : Memory wd → Memory wd
  | [] => [(i, v)]
  | (j, u) :: m =>
    if i < j then (i, v) :: (j, u) :: m
    else if i = j then (i, v) :: m
    else (j, u) :: Memory.put i v m

/-- The words of a list at consecutive slots from `start`. -/
def Memory.number (start : Nat) : List (Word wd) → Memory wd
  | [] => []
  | w :: ws => (start, w) :: Memory.number (start + 1) ws

/-- The canonical form: slot numbers strictly rising. No entry can be said to equal what its slot reads as when
unlisted, since that is a free value (log entry 5). -/
abbrev Memory.wf (m : Memory wd) : Prop := (m.map Prod.fst).Pairwise (· < ·)

/-- `s[i]` (R13): the stored word, or the free value of an unspecified slot (R33, R126). -/
def Buffer.read (b : Buf) (x : Buffer wd) (i : Nat) : Word wd :=
  match Memory.find i x.mem with
  | some v => v
  | none => Config.staleWord wd b x.epoch i

/-- `s[i] <- v` (R13). -/
def Buffer.write (x : Buffer wd) (i : Nat) (v : Word wd) : Buffer wd :=
  { x with mem := Memory.put i v x.mem }

/-- `Store(s, ws)` (R13): slot 0 holds `1 + |ws|`, the words follow, and every other slot becomes unspecified
(R33), which is a new draw. -/
def Buffer.store (x : Buffer wd) (ws : List (Word wd)) : Buffer wd :=
  { mem := (0, BitVec.ofNat wd.bits (1 + ws.length)) :: Memory.number 1 ws, epoch := x.epoch + 1 }

/-- `len(s) = s[0]` (R13, R74). -/
def Buffer.len (b : Buf) (x : Buffer wd) : Nat := (x.read b 0).toNat

/-- `Words(s) = s[1], ..., s[len(s)-1]` (R13), none where `len(s)` is 0 or 1. DESIGN CHOICE (log entry 15): where the
length in slot 0 passes the depth, the slots at or above the depth do not exist (R51) and are read as the free
values of unlisted slots. No command uses such words: each faults LENGTH first (R109). -/
def Buffer.words (b : Buf) (x : Buffer wd) : List (Word wd) :=
  (List.range (x.len b - 1)).map fun j => x.read b (j + 1)

/-- A run word of length 0, which stands for no units and is malformed in a buffer (R75). -/
def isEmptyRun (w : Word wd) : Bool := isRun w && runLen w == 0

/-! ### State -/

/-- The buffer named `b`. -/
def State.buf (s : State) : Buf → Buffer s.params.width
  | .A => s.bufA
  | .B => s.bufB
  | .R => s.bufR

/-- The state with buffer `b` replaced. -/
def State.setBuf (s : State) (b : Buf) (x : Buffer s.params.width) : State :=
  { s with
    bufA := if b = .A then x else s.bufA
    bufB := if b = .B then x else s.bufB
    bufR := if b = .R then x else s.bufR }

/-- `RESULT <- v`. -/
def State.setResult (s : State) (v : Word s.params.width) : State := { s with result := v }

/-- `depth(A) = depth(B) = DEPTH`, `depth(R) = RDEPTH = 2 * DEPTH` (R9, R30, R51). -/
def State.depth (s : State) : Buf → Nat
  | .A => s.params.depth
  | .B => s.params.depth
  | .R => 2 * s.params.depth

def State.len (s : State) (b : Buf) : Nat := (s.buf b).len b

def State.words (s : State) (b : Buf) : List (Word s.params.width) := (s.buf b).words b

/-- The first half of `WF(s)` (R109): `1 <= len(s) <= depth(s)`; where it fails a command faults LENGTH. -/
def State.lengthOk (s : State) (b : Buf) : Bool :=
  decide (1 ≤ s.len b) && decide (s.len b ≤ s.depth b)

/-- The second half of `WF(s)` (R109): no run word of length 0 in `Words(s)`; where it fails a command faults
MALFORMED. -/
def State.runsOk (s : State) (b : Buf) : Bool := (s.words b).all fun w => !isEmptyRun w

/-- `WF(s)` (R109). -/
def State.wellFormed (s : State) (b : Buf) : Bool := s.lengthOk b && s.runsOk b

/-- `Store(s, ws); RESULT <- 1 + |ws|`: how CLEAR, INSERT, the merges and MOVE_R write a buffer (R121, R127,
R143, R184). -/
def State.storeBitmap (s : State) (b : Buf) (ws : List (Word s.params.width)) : State :=
  (s.setBuf b ((s.buf b).store ws)).setResult (BitVec.ofNat s.params.width.bits (1 + ws.length))

/-- Completion of the accepted command with fault code `c` (R25): STATUS, the latch cleared (R34), and the code
kept in the fault log unless it is OK (R214). -/
def State.complete (s : State) (c : Code) : State :=
  { s with
    status := s.status.finish c
    cmdLatch := 0
    argLatch := 0
    faultLog := if c = .ok then s.faultLog else s.faultLog ++ [c] }

/-- The end of a command: `.ok t` where its rule ran to its end in state `t`, `.error c` where it raised `c`, and
then nothing but the completion has an effect (R14, R209). -/
def State.conclude (s : State) (r : Except Code State) : Host.Outcome State Fault Refusal :=
  match r with
  | .ok t => .next (t.complete .ok)
  | .error c => .next (s.complete c)

/-- The reset event (R230, R231): every piece of state takes the value of R40 and a command in progress is
abandoned. The unspecified slots are drawn anew; the fault log stays, since "no later step clears" it (R214),
and so do the model's own records of the host (log entry 11). -/
def State.resetEvent (s : State) : State :=
  { s with
    arg := 0
    result := 0
    status := Status.reset
    cmdLatch := 0
    argLatch := 0
    bufA := s.bufA.store []
    bufB := s.bufB.store []
    bufR := s.bufR.store [] }

end Sys2Proof.Machine
end

