-- ==== Sys2Proof/Machine/Access.lean ====
section
/-! DEFINITION. NOP, CLEAR, WRITE_WORD, READ_WORD and MOVE_R (41_buffer_access.md). -/

namespace Sys2Proof.Machine

/-- CLEAR of buffer `b` (R121): the empty bitmap, RESULT 1; the buffer's old content is not checked. -/
def clearBuffer (b : Buf) (s : State) : Except Code State := .ok (s.storeBitmap b [])

/-- WRITE_WORD (R123): INDEX where the slot does not exist, else the slot takes the word in ARG, unchecked. -/
def writeSlot (b : Buf) (i : Nat) (s : State) : Except Code State :=
  if i < s.depth b then .ok (s.setBuf b ((s.buf b).write i s.argLatch)) else .error .index

/-- READ_WORD (R125): INDEX where the slot does not exist, else RESULT takes the slot's value. -/
def readSlot (b : Buf) (i : Nat) (s : State) : Except Code State :=
  if i < s.depth b then .ok (s.setResult ((s.buf b).read b i)) else .error .index

/-- MOVE_R to `d` (R127). The first two checks never fail in a machine that started at reset (R128). -/
def moveResult (d : Buf) (s : State) : Except Code State :=
  if !s.lengthOk .R then .error .length
  else if !s.runsOk .R then .error .malformed
  else if s.params.depth < s.len .R then .error .capacity
  else .ok (s.storeBitmap d (s.words .R))

/-- NOP: nothing but its completion (R120). -/
def execNop (s : State) : Host.Outcome State Fault Refusal := s.conclude (.ok s)

/-- CLEAR.A (R121). -/
def execClearA (s : State) : Host.Outcome State Fault Refusal := s.conclude (clearBuffer .A s)

/-- CLEAR.B (R121). -/
def execClearB (s : State) : Host.Outcome State Fault Refusal := s.conclude (clearBuffer .B s)

/-- CLEAR.R (R121). -/
def execClearR (s : State) : Host.Outcome State Fault Refusal := s.conclude (clearBuffer .R s)

/-- WRITE_WORD.A (R123). -/
def execWriteWordA (i : Nat) (s : State) : Host.Outcome State Fault Refusal := s.conclude (writeSlot .A i s)

/-- WRITE_WORD.B (R123). -/
def execWriteWordB (i : Nat) (s : State) : Host.Outcome State Fault Refusal := s.conclude (writeSlot .B i s)

/-- READ_WORD.A (R125). -/
def execReadWordA (i : Nat) (s : State) : Host.Outcome State Fault Refusal := s.conclude (readSlot .A i s)

/-- READ_WORD.B (R125). -/
def execReadWordB (i : Nat) (s : State) : Host.Outcome State Fault Refusal := s.conclude (readSlot .B i s)

/-- READ_WORD.R (R125). -/
def execReadWordR (i : Nat) (s : State) : Host.Outcome State Fault Refusal := s.conclude (readSlot .R i s)

/-- MOVE_R.A (R127). -/
def execMoveRA (s : State) : Host.Outcome State Fault Refusal := s.conclude (moveResult .A s)

/-- MOVE_R.B (R127). -/
def execMoveRB (s : State) : Host.Outcome State Fault Refusal := s.conclude (moveResult .B s)

end Sys2Proof.Machine
end

