-- ==== Sys2Proof/Machine/Classifier.lean ====
section
/-! DEFINITION. The word classifier (40_classifier.md, section 1). -/

namespace Sys2Proof.Machine

/-- A classifier of positions (R105, R106): INVALID_ARG unless ARG is a valid position, else RESULT takes the
value `f` gives that position. -/
def classifyPosition (f : Nat → Nat) (s : State) : Except Code State :=
  let p := position s.argLatch
  if validPos s.params.width p then .ok (s.setResult (BitVec.ofNat s.params.width.bits (f p.toNat)))
  else .error .invalidArg

/-- `((p - 1) mod BASE) + 1`, the offset of a position in its word, from 1 (R105). -/
def posInWord (wd : Width) (p : Nat) : Nat := (p - 1) % base wd + 1

/-- CLS_IS_RUN: `RESULT <- zext_W(w[W-1])` (R101). -/
def execClsIsRun (s : State) : Host.Outcome State Fault Refusal :=
  s.conclude (.ok (s.setResult (ofBit s.params.width (isRun s.argLatch))))

/-- CLS_RUN_LEN: `RESULT <- zext_W(w[W-3:0])`, whatever bit W-1 is (R102). -/
def execClsRunLen (s : State) : Host.Outcome State Fault Refusal :=
  s.conclude (.ok (s.setResult (BitVec.ofNat s.params.width.bits (runLen s.argLatch))))

/-- CLS_RUN_ONES: `RESULT <- zext_W(w[W-2])`, whatever bit W-1 is (R103). -/
def execClsRunOnes (s : State) : Host.Outcome State Fault Refusal :=
  s.conclude (.ok (s.setResult (ofBit s.params.width (runOnes s.argLatch))))

/-- CLS_MAX_RUN: `RESULT <- MAXRUN` (R104). -/
def execClsMaxRun (s : State) : Host.Outcome State Fault Refusal :=
  s.conclude (.ok (s.setResult (BitVec.ofNat s.params.width.bits (maxRun s.params.width))))

/-- CLS_POS_IN_WORD (R105). -/
def execClsPosInWord (s : State) : Host.Outcome State Fault Refusal :=
  s.conclude (classifyPosition (posInWord s.params.width) s)

/-- CLS_WORDS_NEEDED: `RESULT <- ceil(p / BASE)` (R106). -/
def execClsWordsNeeded (s : State) : Host.Outcome State Fault Refusal :=
  s.conclude (classifyPosition (unitOf s.params.width) s)

/-- CLS_BASE: `RESULT <- BASE` (R107). -/
def execClsBase (s : State) : Host.Outcome State Fault Refusal :=
  s.conclude (.ok (s.setResult (BitVec.ofNat s.params.width.bits (base s.params.width))))

end Sys2Proof.Machine
end

