-- ==== Sys2Proof/Machine/Insert.lean ====
section
/-! DEFINITION. INSERT with run split (42_insert.md). The rules work on a copy of the buffer's words, which is
written back only at the end (R143). -/

namespace Sys2Proof.Machine

variable {wd : Width}

/-- Where `Scan` stops (R145): the words before the covering word, that word, the words after it, and `cur`, the
units covered by the words before it. -/
structure Hit (wd : Width) where
  before : List (Word wd)
  word : Word wd
  after : List (Word wd)
  cur : Nat
deriving DecidableEq, Repr

/-- `Scan` (R145) from a word that `cur` units precede; `none` where no word covers unit `u`. -/
def scan (u : Nat) : List (Word wd) → Nat → Option (Hit wd)
  | [], _ => none
  | w :: ws, cur =>
    if cur < u ∧ u ≤ cur + span w then some { before := [], word := w, after := ws, cur := cur }
    else (scan u ws (cur + span w)).map fun h => { h with before := w :: h.before }

/-- `TotalUnits` of a word sequence (R110), the value of `cur` where the scan finds nothing. -/
def totalUnits (ws : List (Word wd)) : Nat := (ws.map span).sum

/-- A collapse's preceding side (R147): an all-ones run of length 1, fused into a preceding all-ones run unless
the length would pass MAXRUN (R150). Gives the words that stay before it and its length. -/
def fusePreceding (before : List (Word wd)) : List (Word wd) × Nat :=
  match before.getLast? with
  | some w =>
    if isRun w && runOnes w && decide (runLen w + 1 ≤ maxRun wd) then (before.dropLast, runLen w + 1)
    else (before, 1)
  | none => (before, 1)

/-- A collapse's following side (R148): the all-ones run of length `n` takes in a following all-ones run unless
the length would pass MAXRUN (R150). Gives its length and the words that stay after it. -/
def fuseFollowing (n : Nat) : List (Word wd) → Nat × List (Word wd)
  | [] => (n, [])
  | w :: ws =>
    if isRun w && runOnes w && decide (n + runLen w ≤ maxRun wd) then (n + runLen w, ws) else (n, w :: ws)

/-- `InsertLiteral` (R146, R147): sets bit `k` of the covering literal, and collapses it where the result is
ALLONES, whether or not the bit was set before. -/
def insertLiteral (before : List (Word wd)) (w : Word wd) (after : List (Word wd)) (k : Nat) : List (Word wd) :=
  let nv := w ||| bitWord wd k
  if nv ≠ allOnes wd then before ++ nv :: after
  else
    let left := fusePreceding before
    let right := fuseFollowing left.2 after
    left.1 ++ mkRun true right.1 :: right.2

/-- An all-zero run of `n` units, no word where `n` is 0. -/
def zeroRun (wd : Width) (n : Nat) : List (Word wd) := if n = 0 then [] else [mkRun false n]

/-- `Split` (R151): an all-zero run of length `n` whose unit `t + 1` is the target. -/
def splitRun (before after : List (Word wd)) (t n k : Nat) : List (Word wd) :=
  before ++ (zeroRun wd t ++ bitWord wd k :: zeroRun wd (n - 1 - t)) ++ after

/-- The padding of `gap` all-zero units as whole MAXRUN runs and a last shorter one (R153, R155). -/
def zeroPadding (wd : Width) (gap : Nat) : List (Word wd) :=
  if gap = 0 then []
  else List.replicate ((gap - 1) / maxRun wd) (mkRun false (maxRun wd))
    ++ [mkRun false (gap - (gap - 1) / maxRun wd * maxRun wd)]

/-- The words with `gap` all-zero units after them: added to a trailing all-zero run where they fit (R154), else
as padding words (R153). -/
def appendGap (ws : List (Word wd)) (gap : Nat) : List (Word wd) :=
  match ws.getLast? with
  | some w =>
    if decide (0 < gap) && isRun w && !runOnes w && decide (runLen w + gap ≤ maxRun wd) then
      ws.dropLast ++ [mkRun false (runLen w + gap)]
    else ws ++ zeroPadding wd gap
  | none => ws ++ zeroPadding wd gap

/-- `Append` (R153). -/
def appendUnit (ws : List (Word wd)) (gap k : Nat) : List (Word wd) := appendGap ws gap ++ [bitWord wd k]

/-- The words after inserting position `p` (R143): the case of the covering word, or an append. -/
def insertWords (ws : List (Word wd)) (p : Nat) : List (Word wd) :=
  match scan (unitOf wd p) ws 0 with
  | some h =>
    if !isRun h.word then insertLiteral h.before h.word h.after (bitOf wd p)
    else if runOnes h.word then ws
    else splitRun h.before h.after (unitOf wd p - h.cur - 1) (runLen h.word) (bitOf wd p)
  | none => appendUnit ws (unitOf wd p - 1 - totalUnits ws) (bitOf wd p)

/-- INSERT into buffer `b` (R143), its checks in the order of R210. -/
def insertPosition (b : Buf) (s : State) : Except Code State :=
  let p := position s.argLatch
  if !validPos s.params.width p then .error .invalidArg
  else if !s.lengthOk b then .error .length
  else if !s.runsOk b then .error .malformed
  else
    let ws := insertWords (s.words b) p.toNat
    if s.depth b < 1 + ws.length then .error .capacity else .ok (s.storeBitmap b ws)

/-- INSERT.A (R143). -/
def execInsertA (s : State) : Host.Outcome State Fault Refusal := s.conclude (insertPosition .A s)

/-- INSERT.B (R143). -/
def execInsertB (s : State) : Host.Outcome State Fault Refusal := s.conclude (insertPosition .B s)

end Sys2Proof.Machine
end

