-- ==== Sys2Proof/Machine/Merge.lean ====
section
/-! DEFINITION. The bitwise OR/AND merge engine (43_merge.md). -/

namespace Sys2Proof.Machine

variable {wd : Width}

/-- The operation of a merge (R172). -/
inductive MergeOp where
  | or
  | and
deriving DecidableEq, Repr

/-- `Lit(op, x, y)` (R172). -/
def MergeOp.lit (op : MergeOp) (x y : Word wd) : Word wd :=
  match op with
  | .or => x ||| y
  | .and => x &&& y

/-- `Fill(op, fa, fb)` (R172). -/
def MergeOp.fill (op : MergeOp) (fa fb : Bool) : Bool :=
  match op with
  | .or => fa || fb
  | .and => fa && fb

/-- A cursor (R171): the words from the current one on, and `rem`, the units of the current word not yet
consumed. No word is left when the cursor is done. -/
structure Cursor (wd : Width) where
  rest : List (Word wd)
  rem : Nat
deriving DecidableEq, Repr

/-- The engine's merge working state (R35): both cursors and the staging sequence, newest word first. It lives
inside one step and the host never sees it (log entry 7). -/
structure MergeWork (wd : Width) where
  ca : Cursor wd
  cb : Cursor wd
  out : List (Word wd)
deriving DecidableEq, Repr

/-- `Open` on a word sequence (R171). -/
def cursorAt (ws : List (Word wd)) : Cursor wd :=
  match ws with
  | [] => { rest := [], rem := 0 }
  | w :: _ => { rest := ws, rem := span w }

/-- `Take(c, n)` (R171): the cursor moves to the next word when the current one is used up. -/
def takeUnits (c : Cursor wd) (n : Nat) : Cursor wd :=
  if c.rem - n = 0 then cursorAt c.rest.tail else { c with rem := c.rem - n }

/-- Emit's normalization of a literal (R174): ALLONES under OR and 0 under AND become runs of length 1. -/
def normalize (op : MergeOp) (w : Word wd) : Word wd :=
  if isRun w then w
  else match op with
    | .or => if w = allOnes wd then mkRun true 1 else w
    | .and => if w = 0 then mkRun false 1 else w

/-- The append of Emit (R175, R177): `none` is the fault BOUND, an output longer than `limit` slots. -/
def emitNew (limit : Nat) (w : Word wd) (out : List (Word wd)) : Option (List (Word wd)) :=
  if 1 + out.length + 1 ≤ limit then some (w :: out) else none

/-- `Emit(op, w)` (R174 to R177): normalize, then fuse with the last word or append. -/
def emit (op : MergeOp) (limit : Nat) (w : Word wd) (out : List (Word wd)) : Option (List (Word wd)) :=
  let v := normalize op w
  match out with
  | [] => emitNew limit v out
  | last :: older =>
    if isRun last && isRun v && (runOnes last == runOnes v) && decide (runLen last + runLen v ≤ maxRun wd) then
      some (mkRun (runOnes v) (runLen last + runLen v) :: older)
    else emitNew limit v out

/-- Emits a sequence of words, first word first (R173). -/
def emitAll (op : MergeOp) (limit : Nat) : List (Word wd) → List (Word wd) → Option (List (Word wd))
  | [], out => some out
  | w :: ws, out => (emit op limit w out).bind (emitAll op limit ws)

/-- The word a co-scan step emits for the current words `wa`, `wb`, and the units it consumes from both cursors
(R178 both literal, R179 both runs, R180 mixed). -/
def stepWord (op : MergeOp) (wa wb : Word wd) (ra rb : Nat) : Word wd × Nat :=
  if isRun wa && isRun wb then (mkRun (op.fill (runOnes wa) (runOnes wb)) (min ra rb), min ra rb)
  else if isRun wa then (op.lit wb (fillWord wd (runOnes wa)), 1)
  else if isRun wb then (op.lit wa (fillWord wd (runOnes wb)), 1)
  else (op.lit wa wb, 1)

/-- The co-scan loop of R184, until one cursor is done. `fuel` bounds its steps: each consumes a whole word of one
operand, so the operands' word count is enough (R190). -/
def coScan (op : MergeOp) (limit : Nat) : Nat → MergeWork wd → Option (MergeWork wd)
  | 0, m => some m
  | fuel + 1, m =>
    match m.ca.rest, m.cb.rest with
    | wa :: _, wb :: _ =>
      let e := stepWord op wa wb m.ca.rem m.cb.rem
      (emit op limit e.1 m.out).bind fun out =>
        coScan op limit fuel { ca := takeUnits m.ca e.2, cb := takeUnits m.cb e.2, out := out }
    | _, _ => some m

/-- The words `EmitRest(c)` emits (R181): the current word with the units not yet consumed, then the later words
unchanged. -/
def restWords (c : Cursor wd) : List (Word wd) :=
  match c.rest with
  | [] => []
  | w :: ws => (if isRun w then mkRun (runOnes w) c.rem else w) :: ws

/-- The tail (R181, R182): OR emits what is left of either operand, AND discards it. -/
def tailWords (op : MergeOp) (m : MergeWork wd) : List (Word wd) :=
  match op with
  | .or => restWords m.ca ++ restWords m.cb
  | .and => []

/-- The trim (R183): an output that is exactly one all-zero run becomes empty. -/
def trim (ws : List (Word wd)) : List (Word wd) :=
  match ws with
  | [w] => if isRun w && !runOnes w then [] else ws
  | _ => ws

/-- The output words of a merge of `wsA` and `wsB` (R184 between its checks and its commit); `none` is BOUND. -/
def mergeWords (op : MergeOp) (wsA wsB : List (Word wd)) : Option (List (Word wd)) :=
  let limit := (1 + wsA.length) + (1 + wsB.length)
  (coScan op limit (wsA.length + wsB.length) { ca := cursorAt wsA, cb := cursorAt wsB, out := [] }).bind fun m =>
    (emitAll op limit (tailWords op m) m.out).map fun out => trim out.reverse

/-- `MergeCore(op)` (R184), its checks in the order of R210. -/
def mergeBuffers (op : MergeOp) (s : State) : Except Code State :=
  if !s.lengthOk .A then .error .length
  else if !s.lengthOk .B then .error .length
  else if !s.runsOk .A then .error .malformed
  else if !s.runsOk .B then .error .malformed
  else match mergeWords op (s.words .A) (s.words .B) with
    | none => .error .bound
    | some ws => .ok (s.storeBitmap .R ws)

/-- MERGE_OR (R185). -/
def execMergeOr (s : State) : Host.Outcome State Fault Refusal := s.conclude (mergeBuffers .or s)

/-- MERGE_AND (R186). -/
def execMergeAnd (s : State) : Host.Outcome State Fault Refusal := s.conclude (mergeBuffers .and s)

end Sys2Proof.Machine
end

