-- ==== Sys2Proof/Machine/Dispatch.lean ====
section
/-! DEFINITION. One arm per command. -/

namespace Sys2Proof.Machine

def exec (i : Instr) (s : State) : Host.Outcome State Fault Refusal :=
  match i with
  | .nop => Sys2Proof.Machine.execNop s
  | .clearA => Sys2Proof.Machine.execClearA s
  | .clearB => Sys2Proof.Machine.execClearB s
  | .clearR => Sys2Proof.Machine.execClearR s
  | .writeWordA j => Sys2Proof.Machine.execWriteWordA j s
  | .writeWordB j => Sys2Proof.Machine.execWriteWordB j s
  | .readWordA j => Sys2Proof.Machine.execReadWordA j s
  | .readWordB j => Sys2Proof.Machine.execReadWordB j s
  | .readWordR j => Sys2Proof.Machine.execReadWordR j s
  | .insertA => Sys2Proof.Machine.execInsertA s
  | .insertB => Sys2Proof.Machine.execInsertB s
  | .mergeOr => Sys2Proof.Machine.execMergeOr s
  | .mergeAnd => Sys2Proof.Machine.execMergeAnd s
  | .moveRA => Sys2Proof.Machine.execMoveRA s
  | .moveRB => Sys2Proof.Machine.execMoveRB s
  | .clsIsRun => Sys2Proof.Machine.execClsIsRun s
  | .clsRunLen => Sys2Proof.Machine.execClsRunLen s
  | .clsRunOnes => Sys2Proof.Machine.execClsRunOnes s
  | .clsMaxRun => Sys2Proof.Machine.execClsMaxRun s
  | .clsPosInWord => Sys2Proof.Machine.execClsPosInWord s
  | .clsWordsNeeded => Sys2Proof.Machine.execClsWordsNeeded s
  | .clsBase => Sys2Proof.Machine.execClsBase s

end Sys2Proof.Machine
end

