-- ==== Sys2Proof/WellFormed.lean ====
section
/-! DEFINITION. Which commands a command word can spell: the slot number fits the 16-bit IDX field (R80, R82). -/

namespace Sys2Proof

/-- The slot number a command carries in IDX, 0 for a command that carries none (R82). -/
def Instr.slot : Instr → Nat
  | .writeWordA i => i
  | .writeWordB i => i
  | .readWordA i => i
  | .readWordB i => i
  | .readWordR i => i
  | .nop => 0
  | .clearA => 0
  | .clearB => 0
  | .clearR => 0
  | .insertA => 0
  | .insertB => 0
  | .mergeOr => 0
  | .mergeAnd => 0
  | .moveRA => 0
  | .moveRB => 0
  | .clsIsRun => 0
  | .clsRunLen => 0
  | .clsRunOnes => 0
  | .clsMaxRun => 0
  | .clsPosInWord => 0
  | .clsWordsNeeded => 0
  | .clsBase => 0

/-- The slot number is "an unsigned integer 0 to 65535" (R82). Whether the slot exists is checked when the
command executes, not here. -/
def Instr.wellFormed (i : Instr) : Bool := decide (i.slot < 65536)

end Sys2Proof
end

