-- ==== Sys2Proof/Decode.lean ====
section
/-! DEFINITION. Command words to commands and back (30_encoding.md R80 to R87). -/

namespace Sys2Proof

/-- Why a command word is illegal (R85, R86): the check it fails. -/
inductive DecodeError where
  /-- OP is one of the unassigned values 0x08 to 0x0F, 0x17 to 0xFF. -/
  | unassignedOpcode
  /-- RSV is not 0. -/
  | reservedBits
  /-- BSEL is `11` or a value the opcode does not take. -/
  | bufferSelect
  /-- IDX is not 0 on an opcode other than WRITE_WORD and READ_WORD. -/
  | slotField
deriving DecidableEq, Repr

/-- The four fields of a command word (R80). -/
def fieldOp (c : BitVec 32) : Nat := c.toNat % 256
def fieldBsel (c : BitVec 32) : Nat := c.toNat / 256 % 4
def fieldRsv (c : BitVec 32) : Nat := c.toNat / 1024 % 64
def fieldIdx (c : BitVec 32) : Nat := c.toNat / 65536

/-- The OP values R84 assigns: 0x00 to 0x07 and 0x10 to 0x16. -/
def opAssigned (op : Nat) : Bool := decide (op ≤ 0x07) || (decide (0x10 ≤ op) && decide (op ≤ 0x16))

/-- The row of R84 for an opcode and a buffer select, its slot number filled in; `none` where BSEL is not in the
row's column "legal BSEL". -/
def opcodeRow (op bsel idx : Nat) : Option Instr :=
  match op, bsel with
  | 0x00, 0 => some .nop
  | 0x01, 0 => some .clearA
  | 0x01, 1 => some .clearB
  | 0x01, 2 => some .clearR
  | 0x02, 0 => some (.writeWordA idx)
  | 0x02, 1 => some (.writeWordB idx)
  | 0x03, 0 => some (.readWordA idx)
  | 0x03, 1 => some (.readWordB idx)
  | 0x03, 2 => some (.readWordR idx)
  | 0x04, 0 => some .insertA
  | 0x04, 1 => some .insertB
  | 0x05, 0 => some .mergeOr
  | 0x06, 0 => some .mergeAnd
  | 0x07, 0 => some .moveRA
  | 0x07, 1 => some .moveRB
  | 0x10, 0 => some .clsIsRun
  | 0x11, 0 => some .clsRunLen
  | 0x12, 0 => some .clsRunOnes
  | 0x13, 0 => some .clsMaxRun
  | 0x14, 0 => some .clsPosInWord
  | 0x15, 0 => some .clsWordsNeeded
  | 0x16, 0 => some .clsBase
  | _, _ => none

/-- WRITE_WORD and READ_WORD, the opcodes whose IDX names a slot (R82). -/
def takesSlot (op : Nat) : Bool := op == 0x02 || op == 0x03

/-- R85's four checks in the order written there; every failure is the same fault ILLEGAL (R86). -/
def decode (c : BitVec 32) : Except DecodeError Instr :=
  if !opAssigned (fieldOp c) then .error .unassignedOpcode
  else if fieldRsv c ≠ 0 then .error .reservedBits
  else match opcodeRow (fieldOp c) (fieldBsel c) (fieldIdx c) with
    | none => .error .bufferSelect
    | some i => if takesSlot (fieldOp c) || fieldIdx c == 0 then .ok i else .error .slotField

/-- OP and BSEL of a command, from the same table (R84). -/
def opcodeOf : Instr → Nat × Nat
  | .nop => (0x00, 0)
  | .clearA => (0x01, 0)
  | .clearB => (0x01, 1)
  | .clearR => (0x01, 2)
  | .writeWordA _ => (0x02, 0)
  | .writeWordB _ => (0x02, 1)
  | .readWordA _ => (0x03, 0)
  | .readWordB _ => (0x03, 1)
  | .readWordR _ => (0x03, 2)
  | .insertA => (0x04, 0)
  | .insertB => (0x04, 1)
  | .mergeOr => (0x05, 0)
  | .mergeAnd => (0x06, 0)
  | .moveRA => (0x07, 0)
  | .moveRB => (0x07, 1)
  | .clsIsRun => (0x10, 0)
  | .clsRunLen => (0x11, 0)
  | .clsRunOnes => (0x12, 0)
  | .clsMaxRun => (0x13, 0)
  | .clsPosInWord => (0x14, 0)
  | .clsWordsNeeded => (0x15, 0)
  | .clsBase => (0x16, 0)

/-- The command word of a command: "`OP | (BSEL << 8) | (i << 16)`" (R91); the fields do not overlap, so the sum
is the OR for a well-formed command. -/
def encode (i : Instr) : BitVec 32 :=
  BitVec.ofNat 32 ((opcodeOf i).1 + (opcodeOf i).2 * 256 + i.slot * 65536)

/-- What the decoder reads from an instruction whose bits are `w`, numbered as spec/opcode_table.json numbers
them. A command is one 32-bit word (R87), so bits above `nbits` are 0 and a longer instruction does not exist. -/
def decodeTableWord (nbits w : Nat) : Option Instr :=
  if 32 < nbits then none
  else match decode (BitVec.ofNat 32 (w % 2 ^ nbits)) with
    | .ok i => some i
    | .error _ => none

end Sys2Proof
end

