-- ==== Sys2Proof/Machine/HostPort.lean ====
section
/-! DEFINITION. The host's side: the register map (20_memory.md section 3), register accesses, the `wait` loop
(R93), and the words of a buffer as a host serializes them (R54). -/

namespace Sys2Proof.Machine

open Sys2Proof.Config (Params ByteOrder)

/-- The byte offset of a register from WAHX_BASE (R56). -/
def HostReg.offset : HostReg → Nat
  | .cmd => 0x00
  | .arg => 0x08
  | .result => 0x10
  | .status => 0x18
  | .cfg => 0x20

/-- The width of the one access a register allows: "32 bits for CMD, STATUS and CFG, W bits for ARG and RESULT"
(R57). -/
def regBits (p : Params) : HostReg → Nat
  | .cmd => 32
  | .arg => p.width.bits
  | .result => p.width.bits
  | .status => 32
  | .cfg => 32

/-- The register at a platform address (R56); `none` for every other address, the reserved offsets among them. -/
def regAt (p : Params) (addr : Nat) : Option HostReg :=
  if addr < p.base then none
  else match addr - p.base with
    | 0x00 => some .cmd
    | 0x08 => some .arg
    | 0x10 => some .result
    | 0x18 => some .status
    | 0x20 => some .cfg
    | _ => none

/-- The register an access reaches, `none` where the access is not part of the interface (R57). -/
def accessedReg (p : Params) (addr bits : Nat) : Option HostReg :=
  match regAt p addr with
  | none => none
  | some r => if bits = regBits p r then some r else none

/-- Acceptance of a command word (R21): the engine latches it with the current ARG, BUSY is set, OVR cleared. -/
def State.acceptCommand (s : State) (c : BitVec 32) : State :=
  { s with status := s.status.accept, cmdLatch := c, argLatch := s.arg }

/-- A write of CMD (R21): accepted while idle, dropped with OVR set while busy (R211). -/
def State.writeCmd (s : State) (c : BitVec 32) : State :=
  if s.status.busy then { s with status := s.status.drop } else s.acceptCommand c

/-- A host write of a register (R58): CMD starts or drops a command, ARG takes the value, writes of RESULT, STATUS
and CFG are ignored. -/
def State.writeReg (s : State) (r : HostReg) (v : BitVec 64) : State :=
  match r with
  | .cmd => s.writeCmd (v.setWidth 32)
  | .arg => { s with arg := v.setWidth s.params.width.bits }
  | .result => s
  | .status => s
  | .cfg => s

/-- What a host read of a register returns, zero-extended to 64 bits; it changes nothing (R21, R23, R25, R26,
R58). -/
def State.readReg (s : State) (r : HostReg) : BitVec 64 :=
  match r with
  | .cmd => 0
  | .arg => s.arg.setWidth 64
  | .result => s.result.setWidth 64
  | .status => (statusWord s.status).setWidth 64
  | .cfg => (cfgWord s.params).setWidth 64

/-- The trace with one more event (log entry 12). -/
def State.record (s : State) (e : HostEvent) : State := { s with trace := s.trace ++ [e] }

/-- A host write access. -/
def hostWrite (addr bits : Nat) (v : BitVec 64) (s : State) : Host.Outcome State Fault Refusal :=
  match accessedReg s.params addr bits with
  | none => .refused .accessOutsideInterface
  | some r => .next ((s.writeReg r (v.setWidth (regBits s.params r) |>.setWidth 64)).record
      (.wrote r (v.setWidth (regBits s.params r) |>.setWidth 64)))

/-- A host read access. -/
def hostRead (addr bits : Nat) (s : State) : Host.Outcome State Fault Refusal :=
  match accessedReg s.params addr bits with
  | none => .refused .accessOutsideInterface
  | some r => .next (s.record (.got r (s.readReg r)))

/-- One turn of the host: its next action. `wait` is the loop "repeat rd STATUS -> st until st[0] = 0" (R93): a
turn reads STATUS once, and the action stays while BUSY is 1. A host with nothing left to do does nothing. The
platform's reset event (R230) takes one turn of this list too (DESIGN CHOICE, log entry 16). -/
def hostStep (s : State) : Host.Outcome State Fault Refusal :=
  match s.host with
  | [] => .next s
  | .write addr bits v :: rest => hostWrite addr bits v { s with host := rest }
  | .read addr bits :: rest => hostRead addr bits { s with host := rest }
  | .wait :: rest =>
    .next ({ s with host := if s.status.busy then s.host else rest }.record (.got .status (s.readReg .status)))
  | .reset :: rest => .next ((State.resetEvent { s with host := rest }).record .wasReset)
  | .otherHost :: _ => .refused .secondHost

/-- The bytes of a word, least significant first. -/
def wordBytes {wd : Width} (w : Word wd) : List (BitVec 8) :=
  (List.range (wd.bits / 8)).map fun i => w.extractLsb' (8 * i) 8

/-- A host's serialized copy of buffer `b`, slots `0 .. len - 1`, in the byte order HOST_BYTE_ORDER (R54), one of the two
that `ByteOrder` has (log entry 17): outside the block, which moves whole words only. DESIGN CHOICE (log entry 15) for a
length the spec gives no content for: slot 0 is always listed, also where it holds 0, and slots at or above the depth,
which do not exist (R51), are listed with free values. -/
def State.serialize (s : State) (b : Buf) : List (BitVec 8) :=
  (((s.buf b).read b 0) :: s.words b).flatMap fun w =>
    match s.params.hostByteOrder with
    | .little => wordBytes w
    | .big => (wordBytes w).reverse

end Sys2Proof.Machine
end

