-- ==== Sys2Proof/Machine/Step.lean ====
section
/-! DEFINITION. One step of the block and its host: one turn of the engine or of the host (R5, R236). -/

namespace Sys2Proof.Machine

/-- Whose turn it is: what `schedule` says, and when it says nothing the engine's while a command is latched, so
that every accepted command completes (R236; log entry 2). -/
def State.turn (s : State) : Turn :=
  match s.schedule with
  | t :: _ => t
  | [] => if s.status.busy then .engine else .host

/-- The state with the turn taken off the schedule. -/
def State.takeTurn (s : State) : State := { s with schedule := s.schedule.tail }

/-- The engine's turn (R236): an accepted command executes and completes in one step; an illegal command word
completes with fault ILLEGAL and no other effect (R86). An idle engine does nothing. -/
def engineStep (s : State) : Host.Outcome State Fault Refusal :=
  if s.status.busy then
    match decode s.cmdLatch with
    | .ok i => exec i s
    | .error _ => s.conclude (.error .illegal)
  else .next s

/-- One step. The block has no program counter and fetches nothing (R24, R64): commands come from the host. -/
def step (s : State) : Host.Outcome State Fault Refusal :=
  if s.params.Ok then
    match s.turn with
    | .engine => engineStep s.takeTurn
    | .host => hostStep s.takeTurn
  else .fault .noSuchInstance

/-- `s` with the command word `w` accepted and the engine's turn next, so that the very next step runs it: what a
host write of `w` to CMD leaves in an idle block, whose turn it then is (log entry 10). -/
def State.withFetchWord (s : State) (nbits w : Nat) : State :=
  { s.acceptCommand (BitVec.ofNat 32 (w % 2 ^ nbits)) with schedule := .engine :: s.schedule }

end Sys2Proof.Machine
end

