-- ==== Sys2Proof/Machine/CoScan.lean ====
section
/-! DEFINITION. The words a merge leaves in R, rule by rule and without cursors or a staging sequence: the words the
co-scan and the tail emit, as inference rules (R178 to R182), and what Emit and the trim make of them (R174 to
R176, R183). Statements about MERGE_OR and MERGE_AND compare the engine of Machine/Merge.lean with this. -/

namespace Sys2Proof.Machine

variable {wd : Width}

/-- An operand whose first word is the run `v`, after `n` of that run's units: "the longer run is decremented", the
used up one is passed (R171, R179). -/
def lessUnits (n : Nat) (v : Word wd) (vs : List (Word wd)) : List (Word wd) :=
  if runLen v = n then vs else mkRun (runOnes v) (runLen v - n) :: vs

/-- What a merge emits of the operand that is left (R181, R182). -/
def leftOver (op : MergeOp) (ws : List (Word wd)) : List (Word wd) :=
  match op with
  | .or => ws
  | .and => []

/-- `CoScan op xs ys zs`: from operands whose words not yet consumed are `xs` and `ys`, the merge passes the words
`zs` to Emit, in order. One rule applies to any two well-formed operands. -/
inductive CoScan (op : MergeOp) : List (Word wd) → List (Word wd) → List (Word wd) → Prop where
  /-- R178: both literal. -/
  | literals {x y : Word wd} {xs ys zs : List (Word wd)} (hx : isRun x = false) (hy : isRun y = false)
      (h : CoScan op xs ys zs) : CoScan op (x :: xs) (y :: ys) (op.lit x y :: zs)
  /-- R179: both runs, for the shorter of the two. -/
  | runs {v w : Word wd} {vs ws zs : List (Word wd)} (hv : isRun v = true) (hw : isRun w = true)
      (h : CoScan op (lessUnits (min (runLen v) (runLen w)) v vs) (lessUnits (min (runLen v) (runLen w)) w ws) zs) :
      CoScan op (v :: vs) (w :: ws) (mkRun (op.fill (runOnes v) (runOnes w)) (min (runLen v) (runLen w)) :: zs)
  /-- R180: a literal of the first operand, a run of the second. -/
  | literalRun {x w : Word wd} {xs ws zs : List (Word wd)} (hx : isRun x = false) (hw : isRun w = true)
      (h : CoScan op xs (lessUnits 1 w ws) zs) :
      CoScan op (x :: xs) (w :: ws) (op.lit x (fillWord wd (runOnes w)) :: zs)
  /-- R180: a run of the first operand, a literal of the second. -/
  | runLiteral {v y : Word wd} {vs ys zs : List (Word wd)} (hv : isRun v = true) (hy : isRun y = false)
      (h : CoScan op (lessUnits 1 v vs) ys zs) :
      CoScan op (v :: vs) (y :: ys) (op.lit y (fillWord wd (runOnes v)) :: zs)
  /-- R181, R182: the first operand is done. -/
  | firstDone (ys : List (Word wd)) : CoScan op [] ys (leftOver op ys)
  /-- R181, R182: the second operand is done. -/
  | secondDone (xs : List (Word wd)) : CoScan op xs [] (leftOver op xs)

/-- R174: under OR an ALLONES literal, and under AND a literal 0, becomes a run of length 1. -/
def normalWord (op : MergeOp) (w : Word wd) : Word wd :=
  match op with
  | .or => if w = allOnes wd then mkRun true 1 else w
  | .and => if w = 0 then mkRun false 1 else w

/-- R175, R176: one more word after `out`, fused with its last word where both are runs of one fill flag and the sum
of their lengths is at most MAXRUN. -/
def fuseOn (out : List (Word wd)) (w : Word wd) : List (Word wd) :=
  match out.getLast? with
  | some u =>
    if isRun u && isRun w && (runOnes u == runOnes w) && decide (runLen u + runLen w ≤ maxRun wd) then
      out.dropLast ++ [mkRun (runOnes w) (runLen u + runLen w)]
    else out ++ [w]
  | none => [w]

/-- The output after a sequence of words has gone through Emit, first word first (R173 to R176). -/
def emitted (op : MergeOp) (zs : List (Word wd)) : List (Word wd) :=
  zs.foldl (fun out w => fuseOn out (normalWord op w)) []

/-- R183: an output that is exactly one all-zero run becomes empty; "No other trailing zero run is trimmed". -/
def withoutLoneZeros (ws : List (Word wd)) : List (Word wd) :=
  if ws.length = 1 ∧ ∀ w ∈ ws, isRun w = true ∧ runOnes w = false then [] else ws

end Sys2Proof.Machine
end

