-- ==== Sys2Proof/Machine/Meaning.lean ====
section
/-! DEFINITION. The meaning of a word sequence (40_classifier.md section 2): its unit stream, position set and
cardinality. "This is a definition used to state results; the block has no command that computes it" (R112). -/

namespace Sys2Proof.Machine

variable {wd : Width}

/-- The units of one word (R110). A literal's bits `[BASE-1:0]` are the whole word, its top bit being 0. -/
def wordUnits (w : Word wd) : List (Word wd) :=
  if isRun w then List.replicate (runLen w) (fillWord wd (runOnes w)) else [w]

/-- `Units(s)`, the streaming decode (R110). Unit number `j` of the spec is element `j - 1`. -/
def units (ws : List (Word wd)) : List (Word wd) := ws.flatMap wordUnits

/-- `Pos(s)`, the position set (R112). -/
def Pos (ws : List (Word wd)) : Set Nat :=
  { p | ∃ j k u, (units ws)[j]? = some u ∧ k < base wd ∧ u.getLsbD k = true ∧ p = j * base wd + k + 1 }

/-- The set bits of a literal. -/
def popcount (w : Word wd) : Nat := ((List.range (base wd)).filter fun k => w.getLsbD k).length

/-- `Count(s)` (R113). -/
def count (ws : List (Word wd)) : Nat :=
  (ws.map fun w => if isRun w then (if runOnes w then runLen w * base wd else 0) else popcount w).sum

/-- No run word of length 0: what `WF` asks of a buffer's words (R109). -/
def WordsOk (ws : List (Word wd)) : Prop := ∀ w ∈ ws, isEmptyRun w = false

/-- Two neighbours that invariant I4 lets stand side by side: not two runs of the same fill flag (R38). -/
def apart (v w : Word wd) : Bool := !(isRun v && isRun w && (runOnes v == runOnes w))

/-- As `apart`, but two runs of one fill flag may stand side by side where fusing them "would have produced a run
longer than `MAXRUN`" (R38). -/
def apartOrFull (v w : Word wd) : Bool := apart v w || decide (maxRun wd < runLen v + runLen w)

/-- A word a canonical buffer may hold: no literal equal to 0 or ALLONES (R16, R38). -/
def canonicalWord (w : Word wd) : Bool := isRun w || (decide (w ≠ 0) && decide (w ≠ allOnes wd))

/-- A canonical word sequence (R16): well-formed, no literal 0 or ALLONES, no two adjacent runs of the same fill
flag. -/
def Canonical (ws : List (Word wd)) : Prop :=
  WordsOk ws ∧ (∀ w ∈ ws, canonicalWord w = true) ∧ ws.IsChain fun v w => apart v w = true

/-- As `apart`, but two all-ones runs may stand side by side where their sum passes MAXRUN: the one fuse that INSERT
can refuse for a valid position (R148, R150, R161). -/
def apartOrOnesFull (v w : Word wd) : Bool := apart v w || (runOnes v && decide (maxRun wd < runLen v + runLen w))

/-- Canonical except for two all-ones runs whose fusion would pass MAXRUN (log entry 13). -/
def CanonicalAfterInsert (ws : List (Word wd)) : Prop :=
  WordsOk ws ∧ (∀ w ∈ ws, canonicalWord w = true) ∧ ws.IsChain fun v w => apartOrOnesFull v w = true

/-- Canonical except for pairs whose fusion would pass MAXRUN, which is all R38 promises. -/
def CanonicalUpToLimit (ws : List (Word wd)) : Prop :=
  WordsOk ws ∧ (∀ w ∈ ws, canonicalWord w = true) ∧ ws.IsChain fun v w => apartOrFull v w = true

/-- Equal as bitmaps: the same position set (R114). -/
def SameBitmap (xs ys : List (Word wd)) : Prop := Pos xs = Pos ys

/-- Equal as encodings: slots `0 .. len - 1` equal word for word (R114). -/
def SameEncoding (b c : Buf) (x y : Buffer wd) : Prop := x.read b 0 = y.read c 0 ∧ x.words b = y.words c

end Sys2Proof.Machine
end

