-- ==== Sys2Proof/Safety.lean ====
section
/-! DEFINITION. What claims are stated in: whose turn it is, how a command ends, the legal command words, the
invariant of the machine, a run without faults (R214), and the end of a host program with what is observed there
(R244). -/

namespace Sys2Proof.Machine

variable {wd : Width}

/-- The next step is the engine's, on an accepted command. -/
abbrev EngineMoves (s : State) : Prop :=
  s.params.Ok ∧ s.status.busy = true ∧ s.schedule.head? ≠ some .host

/-- The next step is the host's. -/
abbrev HostMoves (s : State) : Prop :=
  s.params.Ok ∧ (s.schedule.head? = some .host ∨ s.schedule = [] ∧ s.status.busy = false)

/-- `s` after a command has completed without a fault and without any other effect: BUSY and ERR are 0, CODE is 0,
OVR is as it was, and the latch is cleared (R25, R34). -/
def State.afterOk (s : State) : State :=
  { s with
    status := { s.status with busy := false, err := false, code := .ok }
    cmdLatch := 0
    argLatch := 0 }

/-- `s` after a command has completed with fault `c`: nothing but STATUS, the latch and the fault log changes
(R209, R214). -/
def State.afterFault (s : State) (c : Code) : State :=
  { s with
    status := { s.status with busy := false, err := true, code := c }
    cmdLatch := 0
    argLatch := 0
    faultLog := s.faultLog ++ [c] }

/-- The buffer a command writes where it does not fault, `none` where it writes none (R39). -/
def bufferWritten : Instr → Option Buf
  | .nop => none
  | .clearA => some .A
  | .clearB => some .B
  | .clearR => some .R
  | .writeWordA _ => some .A
  | .writeWordB _ => some .B
  | .readWordA _ => none
  | .readWordB _ => none
  | .readWordR _ => none
  | .insertA => some .A
  | .insertB => some .B
  | .mergeOr => some .R
  | .mergeAnd => some .R
  | .moveRA => some .A
  | .moveRB => some .B
  | .clsIsRun => none
  | .clsRunLen => none
  | .clsRunOnes => none
  | .clsMaxRun => none
  | .clsPosInWord => none
  | .clsWordsNeeded => none
  | .clsBase => none

/-- Whether a command writes RESULT where it does not fault: all but NOP and WRITE_WORD do (R39). -/
def resultWritten : Instr → Bool
  | .nop => false
  | .writeWordA _ => false
  | .writeWordB _ => false
  | .clearA => true
  | .clearB => true
  | .clearR => true
  | .readWordA _ => true
  | .readWordB _ => true
  | .readWordR _ => true
  | .insertA => true
  | .insertB => true
  | .mergeOr => true
  | .mergeAnd => true
  | .moveRA => true
  | .moveRB => true
  | .clsIsRun => true
  | .clsRunLen => true
  | .clsRunOnes => true
  | .clsMaxRun => true
  | .clsPosInWord => true
  | .clsWordsNeeded => true
  | .clsBase => true

/-- The outcome of a command that leaves buffer `b` holding the bitmap `ws` (`Store`, R13): RESULT is its new
length, the command completes without a fault, and nothing else changes. The slots past the bitmap are
unspecified (R33), so the statement says nothing of them. -/
def AnswersBitmap (b : Buf) (s : State) (ws : List (Word s.params.width))
    (o : Host.Outcome State Fault Refusal) : Prop :=
  ∃ x : Buffer s.params.width,
    o = .next ((s.setBuf b x).setResult (BitVec.ofNat s.params.width.bits (1 + ws.length))).afterOk
      ∧ x.len b = 1 + ws.length ∧ x.words b = ws

/-- As `AnswersBitmap`, unless the bitmap does not fit the buffer: then CAPACITY (R203). -/
def AnswersBitmapOrCapacity (b : Buf) (s : State) (ws : List (Word s.params.width))
    (o : Host.Outcome State Fault Refusal) : Prop :=
  if 1 + ws.length ≤ s.depth b then AnswersBitmap b s ws o else o = .next (s.afterFault .capacity)

/-- A valid position in the latched operand (R108): `1 <= p <= MAXPOS`, `p = signed_W(ARG)`. -/
def ArgIsPosition (s : State) : Prop :=
  1 ≤ s.argLatch.toInt ∧ s.argLatch.toInt ≤ 2 ^ (s.params.width.bits - 2) - 1

/-- The position in the latched operand, once it is valid. -/
def State.argPos (s : State) : Nat := s.argLatch.toInt.toNat

/-- A legal command word (R84, R85): its OP and BSEL are a row of the opcode map, RSV is 0, and IDX is 0 unless OP
is WRITE_WORD or READ_WORD. -/
def LegalWord (c : BitVec 32) : Prop :=
  ((c.extractLsb' 0 8).toNat, (c.extractLsb' 8 2).toNat) ∈
      [(0x00, 0), (0x01, 0), (0x01, 1), (0x01, 2), (0x02, 0), (0x02, 1), (0x03, 0), (0x03, 1), (0x03, 2), (0x04, 0),
        (0x04, 1), (0x05, 0), (0x06, 0), (0x07, 0), (0x07, 1), (0x10, 0), (0x11, 0), (0x12, 0), (0x13, 0), (0x14, 0),
        (0x15, 0), (0x16, 0)]
    ∧ c.extractLsb' 10 6 = 0
    ∧ (c.extractLsb' 0 8 = 2 ∨ c.extractLsb' 0 8 = 3 ∨ c.extractLsb' 16 16 = 0)

/-- A buffer's slots as R51 lays them out: listed in canonical form, none at or above the depth. -/
def SlotsOk (depth : Nat) (x : Buffer wd) : Prop := Memory.wf x.mem ∧ ∀ e ∈ x.mem, e.1 < depth

/-- The invariant every step keeps: the slots of each buffer lie in its slot space (R51) in canonical form;
ERR is "always equal to `CODE != 0`" (R25); R is well-formed (R128). -/
structure Inv (s : State) : Prop where
  slotsA : SlotsOk s.params.depth s.bufA
  slotsB : SlotsOk s.params.depth s.bufB
  slotsR : SlotsOk (2 * s.params.depth) s.bufR
  errIsCode : s.status.err = decide (s.status.code ≠ .ok)
  resultWellFormed : s.wellFormed .R = true

/-- *No fault reported* (R214): the premise a claim takes about a run. -/
abbrev NoFault (s : State) : Prop := s.faultLog = []

/-- Whether every CMD write of a trace is followed by a read of STATUS with BUSY = 0 (R244). -/
def settledTrace : List HostEvent → Bool → Bool
  | [], settled => settled
  | .wrote .cmd _ :: es, _ => settledTrace es false
  | .got .status v :: es, settled => settledTrace es (settled || !v.getLsbD 0)
  | _ :: es, settled => settledTrace es settled

/-- The end of a host program (R244): its last action has been performed and, if any wrote CMD, a read of STATUS
has returned BUSY = 0 after it. -/
def State.programEnded (s : State) : Bool := s.host.isEmpty && settledTrace s.trace true

/-- The words at slots `0 .. len - 1` of buffer `b` (R244). DESIGN CHOICE (log entry 15): R244 does not say what is
observed of a buffer whose slot 0 is 0 or passes its depth; slot 0 is always listed, and the slots at or above the
depth, which do not exist (R51), are listed with the free values `Buffer.read` gives them. -/
def State.content (s : State) (b : Buf) : List (Word s.params.width) := (s.buf b).read b 0 :: s.words b

/-- What R244 observes at the end of a host program, as numbers. -/
structure Observation where
  result : Nat
  status : Nat
  arg : Nat
  bufA : List Nat
  bufB : List Nat
  bufR : List Nat
  faults : List Code
deriving DecidableEq, Repr

/-- The observation of R244. -/
def State.observe (s : State) : Observation where
  result := s.result.toNat
  status := (statusWord s.status).toNat
  arg := s.arg.toNat
  bufA := (s.content .A).map BitVec.toNat
  bufB := (s.content .B).map BitVec.toNat
  bufR := (s.content .R).map BitVec.toNat
  faults := s.faultLog

end Sys2Proof.Machine
end

