-- ==== Sys2Proof/Certificates/Slice0/Obligations.lean ====
section
/-! DEFINITION. The statements for the provers, from the numbered rules of spec/. -/

open Sys2Proof Sys2Proof.Machine

/-! ### Encoding -/

/-- Decoding the word of a well-formed command gives it back, slot number and all (R80, R82, R84, R85). -/
def Obligations.DecodeOfEncodeIsTheCommand : Prop :=
  ∀ i : Instr, i.wellFormed = true → decode (encode i) = .ok i

/-- A word that decodes is the word of the command it decodes to: no two words spell one command (R85, D41). -/
def Obligations.EncodeOfDecodeIsTheWord : Prop :=
  ∀ (c : BitVec 32) (i : Instr), decode c = .ok i → i.wellFormed = true ∧ encode i = c

/-- The decoder accepts the words that pass every check of R85 and no others. -/
def Obligations.DecoderAcceptsExactlyTheLegalWords : Prop :=
  ∀ c : BitVec 32, (∃ i, decode c = .ok i) ↔ LegalWord c

/-- The encoding examples of R94, legal and illegal. -/
def Obligations.SpecExampleWordsDecode : Prop :=
  decode 0x00000000 = .ok .nop ∧ decode 0x00000201 = .ok .clearR ∧ decode 0x00030002 = .ok (.writeWordA 3)
    ∧ decode 0x00000102 = .ok (.writeWordB 0) ∧ decode 0x00010203 = .ok (.readWordR 1)
    ∧ decode 0x00000004 = .ok .insertA ∧ decode 0x00000005 = .ok .mergeOr ∧ decode 0x00000006 = .ok .mergeAnd
    ∧ decode 0x00000107 = .ok .moveRB ∧ decode 0x00000010 = .ok .clsIsRun ∧ decode 0x00000016 = .ok .clsBase
    ∧ decode 0x00000008 = .error .unassignedOpcode ∧ decode 0x00000304 = .error .bufferSelect
    ∧ decode 0x00000204 = .error .bufferSelect ∧ decode 0x00000405 = .error .reservedBits
    ∧ decode 0x00010004 = .error .slotField ∧ decode 0x00000202 = .error .bufferSelect

/-! ### Steps -/

/-- The engine's turn on an accepted, legal command is `exec` of the command its word decodes to; the turn is taken
off the schedule (R5, R236). -/
def Obligations.StepRunsTheLatchedCommand : Prop :=
  ∀ (s : State) (i : Instr), EngineMoves s → decode s.cmdLatch = .ok i →
    step s = exec i { s with schedule := s.schedule.tail }

/-- An illegal command word completes with fault ILLEGAL and no other effect (R86, R207). -/
def Obligations.IllegalWordFaultsAndDoesNothing : Prop :=
  ∀ s : State, EngineMoves s → ¬ LegalWord s.cmdLatch →
    step s = .next ({ s with schedule := s.schedule.tail }.afterFault .illegal)

/-- Every accepted command, legal or not, completes at the engine's turn: the step answers a next state with
BUSY = 0 (R236). -/
def Obligations.AcceptedCommandCompletes : Prop :=
  ∀ s : State, EngineMoves s → ∃ t, step s = .next t ∧ t.status.busy = false

/-- What each command writes, row by row of R39: STATUS always (BUSY, ERR and CODE, not OVR), with the latch and the
fault log; where it does not fault also RESULT, unless it is NOP or WRITE_WORD, and the one buffer its row names,
none for NOP, READ_WORD and the classifiers. WRITE_WORD writes one slot of it (R52). Nothing else changes, ARG among
it (R22, R25, R214). That the cleared latch holds 0 is the model's choice (log entry 6). -/
def Obligations.CommandsWriteNothingElse : Prop :=
  ∀ (i : Instr) (s : State), ∃ (v : Word s.params.width) (x : Buffer s.params.width) (c : Code),
    exec i s = .next { s with
      result := if resultWritten i = true ∧ c = .ok then v else s.result
      bufA := if bufferWritten i = some .A ∧ c = .ok then x else s.bufA
      bufB := if bufferWritten i = some .B ∧ c = .ok then x else s.bufB
      bufR := if bufferWritten i = some .R ∧ c = .ok then x else s.bufR
      status := { busy := false, err := decide (c ≠ .ok), ovr := s.status.ovr, code := c }
      cmdLatch := 0
      argLatch := 0
      faultLog := if c = .ok then s.faultLog else s.faultLog ++ [c] }
    ∧ ∀ b j, i = .writeWordA j ∧ b = .A ∨ i = .writeWordB j ∧ b = .B →
        ∀ k, k ≠ j → x.read b k = (s.buf b).read b k

/-- A command that faults writes no buffer slot, not RESULT and not ARG: only STATUS, and the model's fault log
(R209). -/
def Obligations.FaultWritesOnlyStatus : Prop :=
  ∀ (i : Instr) (s t : State), exec i s = .next t → t.status.code ≠ .ok → t = s.afterFault t.status.code

/-- R changes only by MERGE_OR, MERGE_AND and CLEAR.R among the commands (R124). -/
def Obligations.OtherCommandsLeaveR : Prop :=
  ∀ (i : Instr) (s : State), i ≠ .mergeOr → i ≠ .mergeAnd → i ≠ .clearR →
    ∃ (v : Word s.params.width) (a b : Buffer s.params.width) (st : Status) (log : List Code),
      exec i s = .next { s with
        result := v, bufA := a, bufB := b, status := st, cmdLatch := 0, argLatch := 0, faultLog := log }

/-! ### The host's accesses -/

/-- A write of CMD: accepted when idle, with ARG latched, BUSY set and OVR cleared; dropped when busy, with OVR
set and nothing else changed. A read of CMD returns 0 (R21, R211). -/
def Obligations.CmdWriteIsAcceptedOrDropped : Prop :=
  ∀ (s : State) (v : BitVec 64) (rest : List HostAction), HostMoves s →
    (s.host = .write s.params.base 32 v :: rest → s.status.busy = false →
      step s = .next { s with
        status := { s.status with busy := true, ovr := false }
        cmdLatch := v.setWidth 32
        argLatch := s.arg
        host := rest
        schedule := s.schedule.tail
        trace := s.trace ++ [.wrote .cmd ((v.setWidth 32).setWidth 64)] })
    ∧ (s.host = .write s.params.base 32 v :: rest → s.status.busy = true →
      step s = .next { s with
        status := { s.status with ovr := true }
        host := rest
        schedule := s.schedule.tail
        trace := s.trace ++ [.wrote .cmd ((v.setWidth 32).setWidth 64)] })
    ∧ (s.host = .read s.params.base 32 :: rest →
      step s = .next { s with
        host := rest, schedule := s.schedule.tail, trace := s.trace ++ [.got .cmd 0] })

/-- A write of ARG, at any time, changes ARG only: the running command's snapshot is not affected (R22, R58,
R238). -/
def Obligations.ArgWriteChangesArgOnly : Prop :=
  ∀ (s : State) (v : BitVec 64) (rest : List HostAction), HostMoves s →
    s.host = .write (s.params.base + 0x08) s.params.width.bits v :: rest →
    ∃ w : BitVec 64, step s = .next { s with
      arg := v.setWidth s.params.width.bits
      host := rest
      schedule := s.schedule.tail
      trace := s.trace ++ [.wrote .arg w] }

/-- A read returns the register's value and changes nothing (R22, R23, R25, R26, R58). -/
def Obligations.ReadsReturnTheRegister : Prop :=
  ∀ (s : State) (rest : List HostAction), HostMoves s →
    let reads (offset bits : Nat) (r : HostReg) (v : BitVec 64) : Prop :=
      s.host = .read (s.params.base + offset) bits :: rest →
        step s = .next { s with host := rest, schedule := s.schedule.tail, trace := s.trace ++ [.got r v] }
    reads 0x08 s.params.width.bits .arg (s.arg.setWidth 64)
      ∧ reads 0x10 s.params.width.bits .result (s.result.setWidth 64)
      ∧ reads 0x18 32 .status ((statusWord s.status).setWidth 64)
      ∧ reads 0x20 32 .cfg ((cfgWord s.params).setWidth 64)

/-- The fields of STATUS: BUSY, ERR, OVR, CODE, and the bits that read 0, REALLOC among them (R25); the numbers of the
fault codes (R200). -/
def Obligations.StatusWordLayout : Prop :=
  (∀ st : Status,
    (statusWord st).getLsbD 0 = st.busy ∧ (statusWord st).getLsbD 1 = st.err ∧ (statusWord st).getLsbD 2 = st.ovr
      ∧ (statusWord st).getLsbD 3 = false ∧ ((statusWord st).extractLsb' 4 4).toNat = st.code.num
      ∧ (statusWord st).extractLsb' 8 24 = 0 ∧ st.code.num ≤ 7)
  ∧ Code.num .ok = 0 ∧ Code.num .invalidArg = 1 ∧ Code.num .capacity = 2 ∧ Code.num .bound = 3
  ∧ Code.num .length = 4 ∧ Code.num .malformed = 5 ∧ Code.num .index = 6 ∧ Code.num .illegal = 7

/-- The fields of CFG: W, DEPTH, and the bits that read 0 (R26). -/
def Obligations.CfgWordLayout : Prop :=
  ∀ p : Config.Params, p.Ok →
    ((cfgWord p).extractLsb' 0 8).toNat = p.width.bits ∧ ((cfgWord p).extractLsb' 8 16).toNat = p.depth
      ∧ (cfgWord p).extractLsb' 24 8 = 0

/-- Host writes of RESULT, STATUS and CFG are ignored (R23, R25, R26, R58). -/
def Obligations.ReadOnlyRegistersIgnoreWrites : Prop :=
  ∀ (s : State) (v : BitVec 64) (rest : List HostAction), HostMoves s →
    let ignored (offset bits : Nat) (r : HostReg) : Prop :=
      s.host = .write (s.params.base + offset) bits v :: rest →
        ∃ w : BitVec 64,
          step s = .next { s with host := rest, schedule := s.schedule.tail, trace := s.trace ++ [.wrote r w] }
    ignored 0x10 s.params.width.bits .result ∧ ignored 0x18 32 .status ∧ ignored 0x20 32 .cfg

/-- An access of another width, at an offset that is not a register's, or outside the block is refused (R57). -/
def Obligations.AccessOutsideTheInterfaceIsRefused : Prop :=
  ∀ (s : State) (addr bits : Nat) (v : BitVec 64) (rest : List HostAction), HostMoves s →
    (∀ e ∈ [(0x00, 32), (0x08, s.params.width.bits), (0x10, s.params.width.bits), (0x18, 32), (0x20, 32)],
      ¬ (addr = s.params.base + e.1 ∧ bits = e.2)) →
    s.host = .write addr bits v :: rest ∨ s.host = .read addr bits :: rest →
    step s = .refused .accessOutsideInterface

/-- An access of a second host is refused (R221). -/
def Obligations.SecondHostIsRefused : Prop :=
  ∀ (s : State) (rest : List HostAction), HostMoves s → s.host = .otherHost :: rest → step s = .refused .secondHost

/-- The wait loop (R93): a turn reads STATUS, and the loop ends when BUSY reads 0. It terminates under every schedule,
at most two steps after the schedule has run out. That a fair schedule is a finite list, after which the engine has
the turn while BUSY is 1 and the host otherwise, is the model's choice (log entries 2 and 14). -/
def Obligations.WaitReadsStatusUntilIdle : Prop :=
  ∀ (s : State) (rest : List HostAction), s.host = .wait :: rest →
    (HostMoves s → step s = .next { s with
      host := if s.status.busy then .wait :: rest else rest
      schedule := s.schedule.tail
      trace := s.trace ++ [.got .status ((statusWord s.status).setWidth 64)] })
    ∧ (s.params.Ok → ∃ (n : Nat) (u : State), n ≤ s.schedule.length + 2
      ∧ Host.Core.run Sys2Proof.core n s = .next u ∧ u.host = rest ∧ u.status.busy = false)

/-- No host action but the reset event reaches a buffer, RESULT or the fault log (R52, R61). -/
def Obligations.HostActionsLeaveBuffersAndResult : Prop :=
  ∀ s t : State, HostMoves s → s.host.head? ≠ some .reset → step s = .next t →
    ∃ (v : Word s.params.width) (st : Status) (c : BitVec 32) (l : Word s.params.width) (h : List HostAction)
      (q : List Turn) (tr : List HostEvent),
      t = { s with
        arg := v, status := st, cmdLatch := c, argLatch := l, host := h, schedule := q, trace := tr }

/-! ### Reset -/

/-- The reset event, whether or not a command executes: ARG, RESULT and STATUS are 0, the engine is idle, each
buffer holds the empty bitmap (R230, R231). What the other slots hold is unspecified. That the fault log, the host, the
schedule and the trace stay (log entry 11), that the emptied latch holds 0 (log entry 6) and that the event takes one
turn of the host's list (log entry 16) are the model's. -/
def Obligations.ResetEventGivesTheResetState : Prop :=
  ∀ (s : State) (rest : List HostAction), HostMoves s → s.host = .reset :: rest →
    ∃ a b r : Buffer s.params.width,
      step s = .next { s with
        arg := 0
        result := 0
        status := { busy := false, err := false, ovr := false, code := .ok }
        cmdLatch := 0
        argLatch := 0
        bufA := a
        bufB := b
        bufR := r
        host := rest
        schedule := s.schedule.tail
        trace := s.trace ++ [.wasReset] }
      ∧ a.read .A 0 = 1 ∧ b.read .B 0 = 1 ∧ r.read .R 0 = 1

/-- The state right after reset, for every instance (R40): STATUS reads 0, ARG and RESULT are 0, and slot 0 of
each buffer is 1. -/
def Obligations.ResetStateValues : Prop :=
  ∀ p : Config.Params,
    let s := State.resetOf p
    s.arg = 0 ∧ s.result = 0 ∧ statusWord s.status = 0 ∧ s.bufA.read .A 0 = 1 ∧ s.bufB.read .B 0 = 1
      ∧ s.bufR.read .R 0 = 1 ∧ s.params = p

/-! ### Invariants -/

/-- Every step keeps the invariant: slots inside their slot spaces in canonical form (R51), ERR equal to `CODE != 0`
(R25), and R well-formed (R128). -/
def Obligations.EveryStepKeepsTheInvariant : Prop :=
  ∀ s t : State, Inv s → step s = .next t → Inv t

/-- The state after reset meets the invariant, for every instance and for `State.reset` (R40, R128). -/
def Obligations.ResetStateMeetsTheInvariant : Prop :=
  (∀ p : Config.Params, p.Ok → Inv (State.resetOf p)) ∧ Inv State.reset

/-- W, DEPTH and the other parameters, and so CFG, never change (R2, R26). -/
def Obligations.ParametersNeverChange : Prop :=
  ∀ s t : State, step s = .next t → t.params = s.params

/-- The fault log only grows, by at most one code a step: no step clears it, and a command never reports more than
one code (R210, R214). -/
def Obligations.FaultLogOnlyGrows : Prop :=
  ∀ s t : State, step s = .next t → t.faultLog = s.faultLog ∨ ∃ c, c ≠ .ok ∧ t.faultLog = s.faultLog ++ [c]

/-- Where the invariant holds MOVE_R never faults LENGTH or MALFORMED (R128). -/
def Obligations.MoveRFaultsOnlyCapacity : Prop :=
  ∀ s t : State, Inv s → exec .moveRA s = .next t ∨ exec .moveRB s = .next t →
    t.status.code = .ok ∨ t.status.code = .capacity

/-! ### NOP, CLEAR, WRITE_WORD, READ_WORD, MOVE_R -/

/-- NOP completes and does nothing else (R120). -/
def Obligations.NopOnlyCompletes : Prop :=
  decode 0x00000000 = .ok .nop ∧ ∀ s : State, exec .nop s = .next s.afterOk

/-- CLEAR leaves the empty bitmap in its buffer and 1 in RESULT, whatever the buffer held (R121). -/
def Obligations.ClearLeavesTheEmptyBitmap : Prop :=
  (decode 0x00000001 = .ok .clearA ∧ decode 0x00000101 = .ok .clearB ∧ decode 0x00000201 = .ok .clearR)
  ∧ ∀ s : State, AnswersBitmap .A s [] (exec .clearA s) ∧ AnswersBitmap .B s [] (exec .clearB s)
    ∧ AnswersBitmap .R s [] (exec .clearR s)

/-- WRITE_WORD stores ARG in its slot, unchecked, and changes no other slot; a slot that does not exist faults INDEX
(R123). -/
def Obligations.WriteWordStoresArg : Prop :=
  (∀ i < 65536, decode (BitVec.ofNat 32 (0x0002 + i * 65536)) = .ok (.writeWordA i)
    ∧ decode (BitVec.ofNat 32 (0x0102 + i * 65536)) = .ok (.writeWordB i))
  ∧ ∀ (b : Buf) (i : Nat) (instr : Instr), (b = .A ∧ instr = .writeWordA i ∨ b = .B ∧ instr = .writeWordB i) →
    ∀ s : State,
      (i < s.params.depth →
        ∃ x : Buffer s.params.width, exec instr s = .next (s.setBuf b x).afterOk
          ∧ ∀ j, x.read b j = if j = i then s.argLatch else (s.buf b).read b j)
      ∧ (s.params.depth ≤ i → exec instr s = .next (s.afterFault .index))

/-- READ_WORD puts the slot's value in RESULT; a slot that does not exist faults INDEX. R has twice the slots of A
and B (R125). -/
def Obligations.ReadWordGivesTheSlot : Prop :=
  (∀ i < 65536, decode (BitVec.ofNat 32 (0x0003 + i * 65536)) = .ok (.readWordA i)
    ∧ decode (BitVec.ofNat 32 (0x0103 + i * 65536)) = .ok (.readWordB i)
    ∧ decode (BitVec.ofNat 32 (0x0203 + i * 65536)) = .ok (.readWordR i))
  ∧ ∀ (b : Buf) (i : Nat) (instr : Instr),
    (b = .A ∧ instr = .readWordA i ∨ b = .B ∧ instr = .readWordB i ∨ b = .R ∧ instr = .readWordR i) →
    ∀ s : State,
      (i < (if b = .R then 2 * s.params.depth else s.params.depth) →
        exec instr s = .next { s with result := (s.buf b).read b i }.afterOk)
      ∧ ((if b = .R then 2 * s.params.depth else s.params.depth) ≤ i → exec instr s = .next (s.afterFault .index))

/-- Two reads of the same slot with no write between them return the same value, a slot whose value is unspecified
among them (R126). -/
def Obligations.RereadingASlotGivesTheSameValue : Prop :=
  ∀ (i : Nat) (instr : Instr), instr ∈ [.readWordA i, .readWordB i, .readWordR i] →
    ∀ s t : State, exec instr s = .next t → t.status.code = .ok →
      ∃ u, exec instr t = .next u ∧ u.status.code = .ok ∧ u.result.toNat = t.result.toNat

/-- MOVE_R copies R's bitmap into its destination and its length into RESULT; it faults LENGTH, MALFORMED or CAPACITY,
in that order, where R is not a bitmap or does not fit DEPTH slots (R127). -/
def Obligations.MoveRCopiesTheResult : Prop :=
  (decode 0x00000007 = .ok .moveRA ∧ decode 0x00000107 = .ok .moveRB)
  ∧ ∀ (d : Buf) (instr : Instr), (d = .A ∧ instr = .moveRA ∨ d = .B ∧ instr = .moveRB) →
    ∀ s : State,
      let n := s.bufR.len .R
      (¬ (1 ≤ n ∧ n ≤ 2 * s.params.depth) → exec instr s = .next (s.afterFault .length))
      ∧ (1 ≤ n ∧ n ≤ 2 * s.params.depth → ¬ WordsOk (s.bufR.words .R) → exec instr s = .next (s.afterFault .malformed))
      ∧ (1 ≤ n ∧ n ≤ 2 * s.params.depth → WordsOk (s.bufR.words .R) → s.params.depth < n →
          exec instr s = .next (s.afterFault .capacity))
      ∧ (1 ≤ n ∧ n ≤ s.params.depth → WordsOk (s.bufR.words .R) →
          AnswersBitmap d s (s.bufR.words .R) (exec instr s) ∧ 1 + (s.bufR.words .R).length = n)

/-! ### The word classifier -/

/-- CLS_IS_RUN gives the top bit of ARG (R101). -/
def Obligations.ClsIsRunGivesTheTopBit : Prop :=
  decode 0x00000010 = .ok .clsIsRun ∧ ∀ s : State, exec .clsIsRun s = .next { s with result := if s.argLatch.msb then 1 else 0 }.afterOk

/-- CLS_RUN_LEN gives ARG masked with `2^(W-2) - 1`, whether ARG is a run word or not (R102). -/
def Obligations.ClsRunLenGivesTheMaskedWord : Prop :=
  decode 0x00000011 = .ok .clsRunLen ∧ ∀ s : State, exec .clsRunLen s = .next
    { s with result := s.argLatch &&& BitVec.ofNat s.params.width.bits (2 ^ (s.params.width.bits - 2) - 1) }.afterOk

/-- CLS_RUN_ONES gives bit W-2 of ARG: whether `w & (wordcount_mask+1)` is not 0 (R103). -/
def Obligations.ClsRunOnesGivesBitWMinus2 : Prop :=
  decode 0x00000012 = .ok .clsRunOnes ∧ ∀ s : State, exec .clsRunOnes s = .next
    { s with result :=
        if s.argLatch &&& BitVec.ofNat s.params.width.bits (2 ^ (s.params.width.bits - 2)) ≠ 0 then 1 else 0 }.afterOk

/-- CLS_MAX_RUN gives `2^(BASE-1) - 1`, whatever ARG is (R104). -/
def Obligations.ClsMaxRunGivesMaxRun : Prop :=
  decode 0x00000013 = .ok .clsMaxRun ∧ ∀ s : State, exec .clsMaxRun s = .next
    { s with result := BitVec.ofNat s.params.width.bits (2 ^ (s.params.width.bits - 2) - 1) }.afterOk

/-- CLS_POS_IN_WORD gives `((p - 1) mod BASE) + 1` for a valid position, and faults INVALID_ARG for any other ARG
(R105). -/
def Obligations.ClsPosInWordGivesTheOffset : Prop :=
  decode 0x00000014 = .ok .clsPosInWord ∧ ∀ s : State,
    (ArgIsPosition s → ∃ v : Word s.params.width,
      exec .clsPosInWord s = .next { s with result := v }.afterOk
        ∧ (v.toNat : Int) = (s.argLatch.toInt - 1) % (s.params.width.bits - 1) + 1
        ∧ 1 ≤ v.toNat ∧ v.toNat ≤ s.params.width.bits - 1)
    ∧ (¬ ArgIsPosition s → exec .clsPosInWord s = .next (s.afterFault .invalidArg))

/-- CLS_WORDS_NEEDED gives `ceil(p / BASE)` for a valid position, the least number of units that reach it, and faults
INVALID_ARG for any other ARG (R106). -/
def Obligations.ClsWordsNeededGivesTheUnit : Prop :=
  decode 0x00000015 = .ok .clsWordsNeeded ∧ ∀ s : State,
    (ArgIsPosition s → ∃ v : Word s.params.width,
      exec .clsWordsNeeded s = .next { s with result := v }.afterOk
        ∧ s.argLatch.toInt ≤ v.toNat * (s.params.width.bits - 1)
        ∧ ((v.toNat : Int) - 1) * (s.params.width.bits - 1) < s.argLatch.toInt)
    ∧ (¬ ArgIsPosition s → exec .clsWordsNeeded s = .next (s.afterFault .invalidArg))

/-- CLS_BASE gives W - 1 (R107). -/
def Obligations.ClsBaseGivesWMinus1 : Prop :=
  decode 0x00000016 = .ok .clsBase ∧ ∀ s : State, exec .clsBase s = .next
    { s with result := BitVec.ofNat s.params.width.bits (s.params.width.bits - 1) }.afterOk

/-! ### INSERT -/

/-- INSERT checks its argument first and its buffer second: INVALID_ARG, then LENGTH, then MALFORMED, each leaving
everything but STATUS as it was (R141, R142). -/
def Obligations.InsertChecksArgumentThenBuffer : Prop :=
  ∀ (b : Buf) (instr : Instr), (b = .A ∧ instr = .insertA ∨ b = .B ∧ instr = .insertB) →
    ∀ s : State,
      (¬ ArgIsPosition s → exec instr s = .next (s.afterFault .invalidArg))
      ∧ (ArgIsPosition s → ¬ (1 ≤ s.len b ∧ s.len b ≤ s.params.depth) → exec instr s = .next (s.afterFault .length))
      ∧ (ArgIsPosition s → 1 ≤ s.len b ∧ s.len b ≤ s.params.depth → ¬ WordsOk (s.words b) →
          exec instr s = .next (s.afterFault .malformed))

/-- INSERT without fault adds its position to the buffer's position set and nothing else, and leaves the buffer
well-formed (R140, R159). -/
def Obligations.InsertAddsThePosition : Prop :=
  ∀ (b : Buf) (instr : Instr), (b = .A ∧ instr = .insertA ∨ b = .B ∧ instr = .insertB) →
    ∀ s t : State, s.params.Ok → exec instr s = .next t → t.status.code = .ok →
      ∃ ws : List (Word s.params.width), AnswersBitmap b s ws (.next t) ∧ WordsOk ws
        ∧ 1 + ws.length ≤ s.params.depth ∧ Pos ws = Pos (s.words b) ∪ {s.argPos}

/-- INSERT of a valid position into a well-formed buffer with two free slots completes without fault; the length
changes by at most two (R160, R242). -/
def Obligations.InsertWithRoomCompletes : Prop :=
  ∀ (b : Buf) (instr : Instr), (b = .A ∧ instr = .insertA ∨ b = .B ∧ instr = .insertB) →
    ∀ s : State, s.params.Ok → ArgIsPosition s → 1 ≤ s.len b → s.len b + 2 ≤ s.params.depth → WordsOk (s.words b) →
      ∃ ws : List (Word s.params.width), AnswersBitmap b s ws (exec instr s)
        ∧ Pos ws = Pos (s.words b) ∪ {s.argPos} ∧ 1 + ws.length ≤ s.len b + 2 ∧ s.len b ≤ 1 + ws.length + 2

/-- INSERT into a canonical buffer leaves it canonical, but that a fuse refused at MAXRUN may leave two all-ones runs
side by side, and never two all-zero runs. R159 says "canonical"; R148, R150 and R161 allow that pair (log entry
13). -/
def Obligations.InsertKeepsCanonicalWords : Prop :=
  ∀ (b : Buf) (instr : Instr), (b = .A ∧ instr = .insertA ∨ b = .B ∧ instr = .insertB) →
    ∀ s t : State, s.params.Ok → Canonical (s.words b) → exec instr s = .next t → t.status.code = .ok →
      ∃ ws : List (Word s.params.width), AnswersBitmap b s ws (.next t) ∧ CanonicalAfterInsert ws

/-- INSERT of a position a canonical buffer already holds changes no word and cannot fault (R157). -/
def Obligations.InsertOfAHeldPositionChangesNoWord : Prop :=
  ∀ (b : Buf) (instr : Instr), (b = .A ∧ instr = .insertA ∨ b = .B ∧ instr = .insertB) →
    ∀ s : State, s.params.Ok → ArgIsPosition s → 1 ≤ s.len b → s.len b ≤ s.params.depth → Canonical (s.words b) →
      s.argPos ∈ Pos (s.words b) → AnswersBitmap b s (s.words b) (exec instr s)

/-- The covering word is a literal that does not become ALLONES: its bit is set and nothing else changes (R146). -/
def Obligations.InsertSetsABitOfALiteral : Prop :=
  ∀ (b : Buf) (instr : Instr), (b = .A ∧ instr = .insertA ∨ b = .B ∧ instr = .insertB) →
    ∀ (s : State) (before after : List (Word s.params.width)) (w : Word s.params.width),
      s.params.Ok → ArgIsPosition s → 1 ≤ s.len b → s.len b ≤ s.params.depth → WordsOk (s.words b) →
      s.words b = before ++ w :: after → isRun w = false →
      totalUnits before + 1 = unitOf s.params.width s.argPos →
      w ||| bitWord s.params.width (bitOf s.params.width s.argPos) ≠ allOnes s.params.width →
      AnswersBitmap b s (before ++ (w ||| bitWord s.params.width (bitOf s.params.width s.argPos)) :: after)
        (exec instr s)

/-- The covering word is a literal that becomes ALLONES: it becomes an all-ones run of length 1, fused with an all-ones
run before it (`n` units) and then with one after it (`m` units), where there is one and the sum of the lengths does
not pass MAXRUN (R147, R148). The unit number of a valid position is below MAXRUN (R161), so the fuse with the run
before never passes it. -/
def Obligations.InsertCollapsesAFullLiteral : Prop :=
  ∀ (b : Buf) (instr : Instr), (b = .A ∧ instr = .insertA ∨ b = .B ∧ instr = .insertB) →
    ∀ (s : State) (before after : List (Word s.params.width)) (w : Word s.params.width) (n m : Nat),
      let one (k : Nat) : Word s.params.width := mkRun true k
      let bare (x : Option (Word s.params.width)) : Prop := ∀ v ∈ x, ¬ (isRun v = true ∧ runOnes v = true)
      let fused (k : Nat) : List (Word s.params.width) :=
        if k + m ≤ maxRun s.params.width then [one (k + m)] else [one k, one m]
      s.params.Ok → ArgIsPosition s → 1 ≤ s.len b → s.len b ≤ s.params.depth → WordsOk (s.words b) →
      isRun w = false → w ||| bitWord s.params.width (bitOf s.params.width s.argPos) = allOnes s.params.width →
      1 ≤ n → n ≤ maxRun s.params.width → 1 ≤ m → m ≤ maxRun s.params.width →
      (s.words b = before ++ w :: after → totalUnits before + 1 = unitOf s.params.width s.argPos →
        bare before.getLast? → bare after.head? → AnswersBitmap b s (before ++ one 1 :: after) (exec instr s))
      ∧ (s.words b = before ++ one n :: w :: after → totalUnits before + n + 1 = unitOf s.params.width s.argPos →
        bare after.head? → AnswersBitmap b s (before ++ one (n + 1) :: after) (exec instr s))
      ∧ (s.words b = before ++ w :: one m :: after → totalUnits before + 1 = unitOf s.params.width s.argPos →
        bare before.getLast? → AnswersBitmap b s (before ++ fused 1 ++ after) (exec instr s))
      ∧ (s.words b = before ++ one n :: w :: one m :: after →
        totalUnits before + n + 1 = unitOf s.params.width s.argPos →
        AnswersBitmap b s (before ++ fused (n + 1) ++ after) (exec instr s))

/-- The covering word is an all-ones run: no word changes, and the command completes without fault (R149). -/
def Obligations.InsertInAnAllOnesRunChangesNoWord : Prop :=
  ∀ (b : Buf) (instr : Instr), (b = .A ∧ instr = .insertA ∨ b = .B ∧ instr = .insertB) →
    ∀ (s : State) (before after : List (Word s.params.width)) (w : Word s.params.width),
      s.params.Ok → ArgIsPosition s → 1 ≤ s.len b → s.len b ≤ s.params.depth → WordsOk (s.words b) →
      s.words b = before ++ w :: after → isRun w = true → runOnes w = true →
      totalUnits before < unitOf s.params.width s.argPos →
      unitOf s.params.width s.argPos ≤ totalUnits before + runLen w →
      AnswersBitmap b s (s.words b) (exec instr s)

/-- The covering word is an all-zero run of length `n` and the target its unit `t + 1`: the run is replaced by a prefix
run of `t` units, the literal and a suffix run of `n - 1 - t` units, an empty run being left out; CAPACITY
where that does not fit (R151, R152). -/
def Obligations.InsertSplitsAnAllZeroRun : Prop :=
  ∀ (b : Buf) (instr : Instr), (b = .A ∧ instr = .insertA ∨ b = .B ∧ instr = .insertB) →
    ∀ (s : State) (before after : List (Word s.params.width)) (w : Word s.params.width) (t : Nat),
      s.params.Ok → ArgIsPosition s → 1 ≤ s.len b → s.len b ≤ s.params.depth → WordsOk (s.words b) →
      s.words b = before ++ w :: after → isRun w = true → runOnes w = false →
      unitOf s.params.width s.argPos = totalUnits before + t + 1 → t < runLen w →
      AnswersBitmapOrCapacity b s
        (before ++ (if t = 0 then [] else [mkRun false t])
          ++ [bitWord s.params.width (bitOf s.params.width s.argPos)]
          ++ (if runLen w - 1 - t = 0 then [] else [mkRun false (runLen w - 1 - t)]) ++ after)
        (exec instr s)

/-- No word covers the target: the gap becomes one all-zero run, or goes into a trailing all-zero run of `n` units, and
the literal follows; CAPACITY where that does not fit (R153, R156). The whole-MAXRUN padding runs of R153 do not occur
for a valid position (R155). -/
def Obligations.InsertAppends : Prop :=
  ∀ (b : Buf) (instr : Instr), (b = .A ∧ instr = .insertA ∨ b = .B ∧ instr = .insertB) →
    ∀ (s : State) (gap n : Nat) (front : List (Word s.params.width)),
      let bit := bitWord s.params.width (bitOf s.params.width s.argPos)
      s.params.Ok → ArgIsPosition s → 1 ≤ s.len b → s.len b ≤ s.params.depth → WordsOk (s.words b) →
      unitOf s.params.width s.argPos = totalUnits (s.words b) + gap + 1 →
      (gap = 0 → AnswersBitmapOrCapacity b s (s.words b ++ [bit]) (exec instr s))
      ∧ (1 ≤ gap → (∀ v ∈ (s.words b).getLast?, ¬ (isRun v = true ∧ runOnes v = false)) →
        AnswersBitmapOrCapacity b s (s.words b ++ [mkRun false gap, bit]) (exec instr s))
      ∧ (1 ≤ gap → 1 ≤ n → n ≤ maxRun s.params.width → s.words b = front ++ [mkRun false n] →
        AnswersBitmapOrCapacity b s (front ++ [mkRun false (n + gap), bit]) (exec instr s))

/-! ### The merge engine -/

/-- A merge checks both lengths, then both operands' words, before anything else (R184, R210). -/
def Obligations.MergeChecksItsOperands : Prop :=
  ∀ (instr : Instr), instr = .mergeOr ∨ instr = .mergeAnd →
    ∀ s : State,
      let lengths := (1 ≤ s.len .A ∧ s.len .A ≤ s.params.depth) ∧ (1 ≤ s.len .B ∧ s.len .B ≤ s.params.depth)
      (¬ lengths → exec instr s = .next (s.afterFault .length))
      ∧ (lengths → ¬ (WordsOk (s.words .A) ∧ WordsOk (s.words .B)) → exec instr s = .next (s.afterFault .malformed))

/-- MERGE_OR of well-formed operands completes without fault, never BOUND, and leaves in R a well-formed bitmap of the
union of their positions, at most `len(A) + len(B) - 1` slots long; A and B stay (R170, R188, R189, R190). -/
def Obligations.MergeOrGivesTheUnion : Prop :=
  ∀ s : State, s.params.Ok → s.wellFormed .A = true → s.wellFormed .B = true →
    ∃ ws : List (Word s.params.width), AnswersBitmap .R s ws (exec .mergeOr s) ∧ WordsOk ws
      ∧ 1 + ws.length + 1 ≤ s.len .A + s.len .B ∧ Pos ws = Pos (s.words .A) ∪ Pos (s.words .B)

/-- MERGE_AND of well-formed operands completes without fault, never BOUND, and leaves in R a well-formed bitmap of the
intersection of their positions, at most `len(A) + len(B) - 1` slots long; A and B stay (R170, R188, R189, R190). -/
def Obligations.MergeAndGivesTheIntersection : Prop :=
  ∀ s : State, s.params.Ok → s.wellFormed .A = true → s.wellFormed .B = true →
    ∃ ws : List (Word s.params.width), AnswersBitmap .R s ws (exec .mergeAnd s) ∧ WordsOk ws
      ∧ 1 + ws.length + 1 ≤ s.len .A + s.len .B ∧ Pos ws = Pos (s.words .A) ∩ Pos (s.words .B)

/-- The words a merge of well-formed operands leaves in R: those the rules R178 to R182 pass to Emit, normalized (R174)
and fused (R175, R176) in order, trimmed only where they are one all-zero run (R183). The rules fix the words:
no other sequence comes from these operands. -/
def Obligations.MergeWordsFollowTheRules : Prop :=
  ∀ (op : MergeOp) (instr : Instr), (op = .or ∧ instr = .mergeOr ∨ op = .and ∧ instr = .mergeAnd) →
    ∀ s : State, s.params.Ok → s.wellFormed .A = true → s.wellFormed .B = true →
      ∃ zs : List (Word s.params.width), CoScan op (s.words .A) (s.words .B) zs
        ∧ (∀ zs', CoScan op (s.words .A) (s.words .B) zs' → zs' = zs)
        ∧ AnswersBitmap .R s (withoutLoneZeros (emitted op zs)) (exec instr s)

/-- The word-level identities of R194: a canonical A ORed with an empty B gives A's words, or none where A is a single
all-zero run; an AND with an empty operand gives none; and operands whose words are swapped give the same words
of R. -/
def Obligations.MergeWordIdentities : Prop :=
  (∀ s : State, s.params.Ok → s.wellFormed .A = true → Canonical (s.words .A) → s.len .B = 1 →
    (∀ w, s.words .A = [w] → isRun w = true → runOnes w = false → AnswersBitmap .R s [] (exec .mergeOr s))
    ∧ ((∀ w, s.words .A = [w] → ¬ (isRun w = true ∧ runOnes w = false)) →
      AnswersBitmap .R s (s.words .A) (exec .mergeOr s)))
  ∧ (∀ s : State, s.params.Ok → s.wellFormed .A = true → s.wellFormed .B = true → s.len .A = 1 ∨ s.len .B = 1 →
    AnswersBitmap .R s [] (exec .mergeAnd s))
  ∧ (∀ (instr : Instr), instr = .mergeOr ∨ instr = .mergeAnd →
    ∀ (s : State) (x y : Buffer s.params.width) (ws : List (Word s.params.width)), s.params.Ok →
      s.wellFormed .A = true → s.wellFormed .B = true →
      x.len .A = s.len .B → x.words .A = s.words .B → y.len .B = s.len .A → y.words .B = s.words .A →
      AnswersBitmap .R s ws (exec instr s) →
      AnswersBitmap .R { s with bufA := x, bufB := y } ws (exec instr { s with bufA := x, bufB := y }))

/-- A merge of canonical operands leaves canonical words in R, but for fuses refused at MAXRUN (R192). -/
def Obligations.MergeKeepsCanonicalWords : Prop :=
  ∀ (instr : Instr), instr = .mergeOr ∨ instr = .mergeAnd →
    ∀ s : State, s.params.Ok → s.wellFormed .A = true → s.wellFormed .B = true → Canonical (s.words .A) →
      Canonical (s.words .B) →
      ∃ ws : List (Word s.params.width), AnswersBitmap .R s ws (exec instr s) ∧ CanonicalUpToLimit ws

/-! ### Meaning -/

/-- The cardinality: the popcounts of the literals and `run_length * BASE` for each all-ones run add up to the number
of positions (R113). -/
def Obligations.CountIsTheNumberOfPositions : Prop :=
  ∀ (wd : Width) (ws : List (Word wd)), (Pos ws).Finite ∧ (Pos ws).ncard = count ws
end

