-- ==== Sys2Proof/Laws/Word.lean ====
section
/-! SUPPORT. The fields of a WAH word: what `mkRun`, `bitWord`, `fillWord` read as, and the constants of R7. -/

namespace Sys2Proof.Machine

variable {wd : Width}

theorem base_pos (wd : Width) : 0 < base wd := by cases wd <;> decide

theorem base_eq (wd : Width) : base wd = wd.bits - 1 := rfl

theorem one_lt_base (wd : Width) : 1 < base wd := by cases wd <;> decide

theorem base_lt_bits (wd : Width) : base wd < wd.bits := by cases wd <;> decide

theorem bits_eq_base_add_one (wd : Width) : wd.bits = base wd + 1 := by cases wd <;> rfl

theorem maxRun_add_one (wd : Width) : maxRun wd + 1 = 2 ^ (wd.bits - 2) := by cases wd <;> rfl

theorem maxPos_eq_maxRun (wd : Width) : maxPos wd = maxRun wd := by cases wd <;> rfl

theorem maxRun_pos (wd : Width) : 0 < maxRun wd := by cases wd <;> decide

/-- The bound of R155: a valid position's unit number never reaches MAXRUN. -/
theorem maxUnit_lt_maxRun (wd : Width) : maxUnit wd < maxRun wd := by cases wd <;> decide

theorem two_pow_bits (wd : Width) : 2 ^ wd.bits = 4 * 2 ^ (wd.bits - 2) := by cases wd <;> rfl

theorem two_pow_base (wd : Width) : 2 ^ base wd = 2 * 2 ^ (wd.bits - 2) := by cases wd <;> rfl

theorem isRun_iff (w : Word wd) : isRun w = true ↔ 2 * 2 ^ (wd.bits - 2) ≤ w.toNat := by
  have h : isRun w = w.msb := by
    rw [isRun, BitVec.msb_eq_getLsbD_last]
  rw [h, BitVec.msb_eq_decide, decide_eq_true_iff]
  cases wd <;> exact Iff.rfl

theorem isRun_false_iff (w : Word wd) : isRun w = false ↔ w.toNat < 2 * 2 ^ (wd.bits - 2) := by
  rw [← Bool.not_eq_true, isRun_iff, Nat.not_le]

theorem runLen_le (w : Word wd) : runLen w ≤ maxRun wd := by
  have h : runLen w < 2 ^ (wd.bits - 2) := Nat.mod_lt _ (Nat.two_pow_pos _)
  have := maxRun_add_one wd
  omega

theorem mkRun_toNat {f : Bool} {n : Nat} (h : n ≤ maxRun wd) :
    (mkRun f n : Word wd).toNat
      = 2 * 2 ^ (wd.bits - 2) + (if f then 2 ^ (wd.bits - 2) else 0) + n := by
  have e : (runFlag wd ||| (if f then fillFlag wd else 0)).toNat = 2 ^ (wd.bits - 2) * (if f then 3 else 2) := by
    cases wd <;> cases f <;> rfl
  have hm := maxRun_add_one wd
  have hn : n < 2 ^ (wd.bits - 2) := by omega
  have hb := two_pow_bits wd
  rw [mkRun, BitVec.toNat_or, e, BitVec.toNat_ofNat, Nat.mod_eq_of_lt (by omega),
    ← Nat.two_pow_add_eq_or_of_lt hn]
  cases f <;> simp <;> omega

theorem isRun_mkRun {f : Bool} {n : Nat} (h : n ≤ maxRun wd) : isRun (mkRun f n : Word wd) = true := by
  rw [isRun_iff, mkRun_toNat h]
  omega

theorem runLen_mkRun {f : Bool} {n : Nat} (h : n ≤ maxRun wd) : runLen (mkRun f n : Word wd) = n := by
  have := maxRun_add_one wd
  rw [runLen, mkRun_toNat h]
  cases f
  · rw [show 2 * 2 ^ (wd.bits - 2) + (if false = true then 2 ^ (wd.bits - 2) else 0) + n
        = n + 2 ^ (wd.bits - 2) * 2 by simp; omega, Nat.add_mul_mod_self_left]
    exact Nat.mod_eq_of_lt (by omega)
  · rw [show 2 * 2 ^ (wd.bits - 2) + (if true = true then 2 ^ (wd.bits - 2) else 0) + n
        = n + 2 ^ (wd.bits - 2) * 3 by simp; omega, Nat.add_mul_mod_self_left]
    exact Nat.mod_eq_of_lt (by omega)

theorem runOnes_eq (w : Word wd) : runOnes w = decide (w.toNat / 2 ^ (wd.bits - 2) % 2 = 1) := by
  rw [runOnes, BitVec.getLsbD, Nat.testBit_eq_decide_div_mod_eq]

theorem runOnes_mkRun {f : Bool} {n : Nat} (h : n ≤ maxRun wd) : runOnes (mkRun f n : Word wd) = f := by
  have := maxRun_add_one wd
  have hp : 0 < 2 ^ (wd.bits - 2) := Nat.two_pow_pos _
  rw [runOnes_eq, mkRun_toNat h]
  cases f
  · rw [show 2 * 2 ^ (wd.bits - 2) + (if false = true then 2 ^ (wd.bits - 2) else 0) + n
        = n + 2 ^ (wd.bits - 2) * 2 by simp; omega, Nat.add_mul_div_left _ _ hp, Nat.div_eq_of_lt (by omega)]
    rfl
  · rw [show 2 * 2 ^ (wd.bits - 2) + (if true = true then 2 ^ (wd.bits - 2) else 0) + n
        = n + 2 ^ (wd.bits - 2) * 3 by simp; omega, Nat.add_mul_div_left _ _ hp, Nat.div_eq_of_lt (by omega)]
    rfl

/-- `MkRun` is the inverse of the extraction functions (R73): a run word is its fields. -/
theorem mkRun_fields {w : Word wd} (h : isRun w = true) : mkRun (runOnes w) (runLen w) = w := by
  apply BitVec.eq_of_toNat_eq
  rw [mkRun_toNat (runLen_le w), runOnes_eq]
  rw [isRun_iff] at h
  have hw : w.toNat < 4 * 2 ^ (wd.bits - 2) := by rw [← two_pow_bits]; exact w.isLt
  have hp : 0 < 2 ^ (wd.bits - 2) := Nat.two_pow_pos _
  have hd := Nat.div_add_mod w.toNat (2 ^ (wd.bits - 2))
  rw [← runLen] at hd
  have h2 : w.toNat / 2 ^ (wd.bits - 2) < 4 := Nat.div_lt_of_lt_mul (by omega)
  have h1 : 2 ≤ w.toNat / 2 ^ (wd.bits - 2) := (Nat.le_div_iff_mul_le hp).2 h
  generalize w.toNat / 2 ^ (wd.bits - 2) = q at *
  have hq : q = 2 ∨ q = 3 := by omega
  rcases hq with rfl | rfl <;> simp <;> omega

theorem span_mkRun {f : Bool} {n : Nat} (h : n ≤ maxRun wd) : span (mkRun f n : Word wd) = n := by
  rw [span, if_pos (isRun_mkRun h), runLen_mkRun h]

theorem allOnes_toNat (wd : Width) : (allOnes wd).toNat = 2 ^ base wd - 1 := by cases wd <;> rfl

theorem isRun_allOnes (wd : Width) : isRun (allOnes wd) = false := by cases wd <;> decide

theorem isRun_zero (wd : Width) : isRun (0 : Word wd) = false := by cases wd <;> decide

theorem isRun_fillWord (wd : Width) (f : Bool) : isRun (fillWord wd f) = false := by
  cases f
  · exact isRun_zero wd
  · exact isRun_allOnes wd

theorem allOnes_getLsbD (wd : Width) (k : Nat) : (allOnes wd).getLsbD k = decide (k < base wd) := by
  rw [BitVec.getLsbD, allOnes_toNat, Nat.testBit_two_pow_sub_one]

theorem fillWord_getLsbD (wd : Width) (f : Bool) (k : Nat) :
    (fillWord wd f).getLsbD k = (f && decide (k < base wd)) := by
  cases f
  · simp [fillWord]
  · simp [fillWord, allOnes_getLsbD]

theorem bitWord_toNat {k : Nat} (h : k < base wd) : (bitWord wd k).toNat = 2 ^ k := by
  have h1 : (1 : Word wd).toNat = 1 := by cases wd <;> rfl
  rw [bitWord, BitVec.toNat_shiftLeft, h1, Nat.shiftLeft_eq, Nat.one_mul]
  exact Nat.mod_eq_of_lt (Nat.pow_lt_pow_right (by decide) (Nat.lt_trans h (base_lt_bits wd)))

theorem bitWord_getLsbD {k : Nat} (h : k < base wd) (j : Nat) : (bitWord wd k).getLsbD j = decide (j = k) := by
  rw [BitVec.getLsbD, bitWord_toNat h, Nat.testBit_two_pow]
  exact decide_eq_decide.2 ⟨Eq.symm, Eq.symm⟩

theorem isRun_getLsbD (w : Word wd) : isRun w = w.getLsbD (base wd) := rfl

theorem isRun_bitWord {k : Nat} (h : k < base wd) : isRun (bitWord wd k) = false := by
  rw [isRun_getLsbD, bitWord_getLsbD h]
  simp; omega

theorem bitWord_ne_allOnes {k : Nat} (h : k < base wd) : bitWord wd k ≠ allOnes wd := by
  intro e
  have hb := one_lt_base wd
  have h0 := congrArg (fun w : Word wd => w.getLsbD 0) e
  have h1 := congrArg (fun w : Word wd => w.getLsbD 1) e
  simp [bitWord_getLsbD h, allOnes_getLsbD] at h0 h1
  omega

theorem bitWord_ne_zero {k : Nat} (h : k < base wd) : bitWord wd k ≠ 0 := by
  intro e
  have h0 := congrArg (fun w : Word wd => w.getLsbD k) e
  simp [bitWord_getLsbD h] at h0

theorem isRun_or (x y : Word wd) : isRun (x ||| y) = (isRun x || isRun y) := by
  simp [isRun]

theorem isRun_and (x y : Word wd) : isRun (x &&& y) = (isRun x && isRun y) := by
  simp [isRun]

/-- A literal is its BASE bits (R71). -/
theorem literal_ext {x y : Word wd} (hx : isRun x = false) (hy : isRun y = false)
    (h : ∀ k, k < base wd → x.getLsbD k = y.getLsbD k) : x = y := by
  apply BitVec.eq_of_getLsbD_eq
  intro i hi
  rw [bits_eq_base_add_one] at hi
  rcases Nat.lt_or_ge i (base wd) with h1 | h1
  · exact h i h1
  · have : i = base wd := by omega
    subst this
    rw [← isRun_getLsbD, ← isRun_getLsbD, hx, hy]

theorem bitOf_lt (wd : Width) (p : Nat) : bitOf wd p < base wd := Nat.mod_lt _ (base_pos wd)

/-- R111 for a position `p ≥ 1`: its unit and bit are those of `(u - 1) * BASE + k + 1 = p`. -/
theorem unit_bit (wd : Width) {p : Nat} (h : 1 ≤ p) :
    1 ≤ unitOf wd p ∧ (unitOf wd p - 1) * base wd + bitOf wd p + 1 = p := by
  have hb := base_pos wd
  have e : unitOf wd p = (p - 1) / base wd + 1 := by
    rw [unitOf, ceilDiv, show p + base wd - 1 = (p - 1) + base wd by omega, Nat.add_div_right _ hb]
  rw [e, bitOf]
  refine ⟨Nat.le_add_left _ _, ?_⟩
  have := Nat.div_add_mod (p - 1) (base wd)
  rw [Nat.add_sub_cancel, Nat.mul_comm, this]
  omega

theorem unitOf_le_maxUnit (wd : Width) {p : Nat} (h : p ≤ maxPos wd) : unitOf wd p ≤ maxUnit wd :=
  Nat.div_le_div_right (by omega)

end Sys2Proof.Machine
end

