-- ==== Sys2Proof/Laws/Units.lean ====
section
/-! SUPPORT. The unit stream (R110) and the position set (R112) of a word sequence: their equations on lists, and
what changing one unit does to the position set. -/

namespace Sys2Proof.Machine

variable {wd : Width}

@[simp] theorem units_nil : units ([] : List (Word wd)) = [] := rfl

@[simp] theorem units_cons (w : Word wd) (ws : List (Word wd)) : units (w :: ws) = wordUnits w ++ units ws := rfl

@[simp] theorem units_append (xs ys : List (Word wd)) : units (xs ++ ys) = units xs ++ units ys := by
  simp [units]

theorem wordUnits_literal {w : Word wd} (h : isRun w = false) : wordUnits w = [w] := by simp [wordUnits, h]

theorem wordUnits_run {w : Word wd} (h : isRun w = true) :
    wordUnits w = List.replicate (runLen w) (fillWord wd (runOnes w)) := by simp [wordUnits, h]

theorem wordUnits_mkRun {f : Bool} {n : Nat} (h : n ≤ maxRun wd) :
    wordUnits (mkRun f n : Word wd) = List.replicate n (fillWord wd f) := by
  rw [wordUnits_run (isRun_mkRun h), runLen_mkRun h, runOnes_mkRun h]

theorem length_wordUnits (w : Word wd) : (wordUnits w).length = span w := by
  rw [wordUnits, span]; split <;> simp

@[simp] theorem totalUnits_nil : totalUnits ([] : List (Word wd)) = 0 := rfl

@[simp] theorem totalUnits_cons (w : Word wd) (ws : List (Word wd)) :
    totalUnits (w :: ws) = span w + totalUnits ws := by simp [totalUnits]

@[simp] theorem totalUnits_append (xs ys : List (Word wd)) :
    totalUnits (xs ++ ys) = totalUnits xs + totalUnits ys := by simp [totalUnits]

/-- `TotalUnits(s) = |Units(s)|` (R110). -/
theorem length_units (ws : List (Word wd)) : (units ws).length = totalUnits ws := by
  induction ws with
  | nil => rfl
  | cons w ws ih => simp [ih, length_wordUnits]

/-- Every unit is a literal value (R110). -/
theorem units_literal (ws : List (Word wd)) : ∀ u ∈ units ws, isRun u = false := by
  induction ws with
  | nil => simp
  | cons w ws ih =>
    intro u hu
    rw [units_cons, List.mem_append] at hu
    rcases hu with hu | hu
    · rw [wordUnits] at hu
      split at hu
      · rw [List.eq_of_mem_replicate hu, isRun_fillWord]
      · simp_all
    · exact ih u hu

/-- Bit `k` of unit `j` (from 0) of a unit stream, 0 past its end: "a bitmap is implicitly all-zero past its last
word" (R112). -/
def unitBit (us : List (Word wd)) (j k : Nat) : Bool :=
  match us[j]? with
  | some u => u.getLsbD k
  | none => false

/-- Membership in the position set, through the unit and the bit of a position (R111). -/
theorem mem_Pos (ws : List (Word wd)) (p : Nat) :
    p ∈ Pos ws ↔ 1 ≤ p ∧ unitBit (units ws) ((p - 1) / base wd) ((p - 1) % base wd) = true := by
  have hb := base_pos wd
  constructor
  · rintro ⟨j, k, u, hu, hk, hbit, rfl⟩
    have e : j * base wd + k + 1 - 1 = k + base wd * j := by rw [Nat.mul_comm]; omega
    refine ⟨by omega, ?_⟩
    rw [e, Nat.add_mul_div_left _ _ hb, Nat.add_mul_mod_self_left, Nat.div_eq_of_lt hk, Nat.mod_eq_of_lt hk,
      Nat.zero_add]
    simp [unitBit, hu, hbit]
  · rintro ⟨hp, h⟩
    rw [unitBit] at h
    split at h
    · rename_i u hu
      refine ⟨_, _, u, hu, Nat.mod_lt _ hb, h, ?_⟩
      have := Nat.div_add_mod (p - 1) (base wd)
      rw [Nat.mul_comm] at this
      omega
    · cases h

/-- Two word sequences whose unit streams have the same bits have the same positions. -/
theorem Pos_congr {xs ys : List (Word wd)} (h : ∀ j k, k < base wd → unitBit (units xs) j k = unitBit (units ys) j k) :
    Pos xs = Pos ys := by
  ext p
  rw [mem_Pos, mem_Pos, h _ _ (Nat.mod_lt _ (base_pos wd))]

theorem unitBit_append_zeros (us : List (Word wd)) (n j k : Nat) :
    unitBit (us ++ List.replicate n 0) j k = unitBit us j k := by
  unfold unitBit
  rcases Nat.lt_or_ge j us.length with h | h
  · rw [List.getElem?_append_left h]
  · rw [List.getElem?_append_right h, List.getElem?_eq_none h]
    by_cases h2 : j - us.length < n
    · rw [List.getElem?_replicate, if_pos h2]; simp
    · rw [List.getElem?_replicate, if_neg h2]

/-- Setting bit `k` in one unit of a stream. -/
theorem unitBit_set (L R : List (Word wd)) (x : Word wd) {k : Nat} (hk : k < base wd) (j i : Nat) :
    unitBit (L ++ (x ||| bitWord wd k) :: R) j i
      = (unitBit (L ++ x :: R) j i || (decide (j = L.length) && decide (i = k))) := by
  unfold unitBit
  rcases Nat.lt_trichotomy j L.length with h | h | h
  · rw [List.getElem?_append_left h, List.getElem?_append_left h]
    simp [Nat.ne_of_lt h]
  · subst h
    simp [bitWord_getLsbD hk]
  · obtain ⟨d, rfl⟩ : ∃ d, j = L.length + (d + 1) := ⟨j - L.length - 1, by omega⟩
    rw [List.getElem?_append_right (by omega), List.getElem?_append_right (by omega)]
    simp

/-- Setting the bit of position `p` in its unit adds `p` to the position set and nothing else. -/
theorem Pos_of_set_bit {ws vs L R : List (Word wd)} {x : Word wd} {p z : Nat} (hp : 1 ≤ p)
    (hw : units ws ++ List.replicate z 0 = L ++ x :: R) (hL : L.length = unitOf wd p - 1)
    (hv : units vs = L ++ (x ||| bitWord wd (bitOf wd p)) :: R) : Pos vs = Pos ws ∪ {p} := by
  ext q
  rw [Set.mem_union, mem_Pos, mem_Pos, hv, unitBit_set _ _ _ (bitOf_lt wd p), ← hw, unitBit_append_zeros, hL,
    Set.mem_singleton_iff]
  have hu := unit_bit wd hp
  have hb := base_pos wd
  have e : unitOf wd p - 1 = (p - 1) / base wd := by
    rw [unitOf, ceilDiv, show p + base wd - 1 = (p - 1) + base wd by omega, Nat.add_div_right _ hb,
      Nat.add_sub_cancel]
  have key : 1 ≤ q → (((q - 1) / base wd = unitOf wd p - 1 ∧ (q - 1) % base wd = bitOf wd p) ↔ q = p) := by
    intro hq
    rw [e, bitOf]
    constructor
    · rintro ⟨h1, h2⟩
      have a := Nat.div_add_mod (q - 1) (base wd)
      have b := Nat.div_add_mod (p - 1) (base wd)
      rw [h1, h2, b] at a
      omega
    · rintro rfl; exact ⟨rfl, rfl⟩
  by_cases hq : 1 ≤ q
  · simp [hq, key hq]
  · have : q ≠ p := by omega
    simp [this, hq]

end Sys2Proof.Machine
end

