-- ==== Sys2Proof/Laws/Insert.lean ====
section
/-! SUPPORT. INSERT on word sequences: where the scan stops, what each case does to the unit stream, and what it
keeps (42_insert.md). -/

namespace Sys2Proof.Machine

variable {wd : Width}

/-! ### The scan -/

theorem scan_some {u : Nat} {ws : List (Word wd)} {cur : Nat} {h : Hit wd} (e : scan u ws cur = some h) :
    ws = h.before ++ h.word :: h.after ∧ h.cur = cur + totalUnits h.before ∧ h.cur < u ∧ u ≤ h.cur + span h.word := by
  induction ws generalizing cur h with
  | nil => cases e
  | cons w ws ih =>
    rw [scan] at e
    split at e
    · cases e; simp_all
    · obtain ⟨g, hg, rfl⟩ := Option.map_eq_some_iff.1 e
      obtain ⟨h1, h2, h3, h4⟩ := ih hg
      refine ⟨by simp [← h1], ?_, h3, h4⟩
      simp only [totalUnits_cons]; omega

theorem scan_none {u : Nat} {ws : List (Word wd)} {cur : Nat} (e : scan u ws cur = none) (hc : cur < u) :
    cur + totalUnits ws < u := by
  induction ws generalizing cur with
  | nil => simpa using hc
  | cons w ws ih =>
    rw [scan] at e
    split at e
    · cases e
    · rename_i hn
      have := ih (Option.map_eq_none_iff.1 e) (by omega)
      simp only [totalUnits_cons]; omega

/-- The scan stops at the word that covers the unit: any split of the sequence around a covering word is the one
it finds. -/
theorem scan_eq (u : Nat) (before after : List (Word wd)) (w : Word wd) (cur : Nat)
    (h1 : cur + totalUnits before < u) (h2 : u ≤ cur + totalUnits before + span w) :
    scan u (before ++ w :: after) cur
      = some { before := before, word := w, after := after, cur := cur + totalUnits before } := by
  induction before generalizing cur with
  | nil =>
    simp at h1 h2
    simp [scan, h1, h2]
  | cons v before ih =>
    simp only [totalUnits_cons] at h1 h2
    rw [List.cons_append, scan, if_neg (by omega), ih (cur + span v) (by omega) (by omega)]
    simp [Nat.add_assoc]

theorem scan_eq_none (u : Nat) (ws : List (Word wd)) (cur : Nat) (h : cur + totalUnits ws < u) :
    scan u ws cur = none := by
  cases e : scan u ws cur with
  | none => rfl
  | some g =>
    obtain ⟨h1, h2, _, h4⟩ := scan_some e
    rw [h1] at h
    simp at h
    omega

/-! ### The cases of INSERT, by the word that covers the target -/

theorem insertWords_literal {p : Nat} {before after : List (Word wd)} {w : Word wd} (hw : isRun w = false)
    (h : totalUnits before + 1 = unitOf wd p) :
    insertWords (before ++ w :: after) p = insertLiteral before w after (bitOf wd p) := by
  rw [insertWords, scan_eq _ before after w 0 (by omega) (by simp [span, hw]; omega)]
  simp [hw]

theorem insertWords_ones {p : Nat} {before after : List (Word wd)} {w : Word wd} (hw : isRun w = true)
    (ho : runOnes w = true) (h1 : totalUnits before < unitOf wd p)
    (h2 : unitOf wd p ≤ totalUnits before + runLen w) :
    insertWords (before ++ w :: after) p = before ++ w :: after := by
  rw [insertWords, scan_eq _ before after w 0 (by omega) (by simp [span, hw]; omega)]
  simp [hw, ho]

theorem insertWords_zeros {p : Nat} {before after : List (Word wd)} {w : Word wd} (hw : isRun w = true)
    (ho : runOnes w = false) (h1 : totalUnits before < unitOf wd p)
    (h2 : unitOf wd p ≤ totalUnits before + runLen w) :
    insertWords (before ++ w :: after) p
      = splitRun before after (unitOf wd p - totalUnits before - 1) (runLen w) (bitOf wd p) := by
  rw [insertWords, scan_eq _ before after w 0 (by omega) (by simp [span, hw]; omega)]
  simp [hw, ho]

theorem insertWords_append {p : Nat} {ws : List (Word wd)} (h : totalUnits ws < unitOf wd p) :
    insertWords ws p = appendUnit ws (unitOf wd p - 1 - totalUnits ws) (bitOf wd p) := by
  rw [insertWords, scan_eq_none _ ws 0 (by omega)]

/-- The four cases are all there are (R143). -/
theorem insertWords_cases (ws : List (Word wd)) (p : Nat) (hu : 1 ≤ unitOf wd p) :
    (∃ before w after, ws = before ++ w :: after ∧ isRun w = false ∧ totalUnits before + 1 = unitOf wd p)
    ∨ (∃ before w after, ws = before ++ w :: after ∧ isRun w = true ∧ totalUnits before < unitOf wd p
        ∧ unitOf wd p ≤ totalUnits before + runLen w)
    ∨ totalUnits ws < unitOf wd p := by
  cases e : scan (unitOf wd p) ws 0 with
  | none => exact .inr (.inr (by simpa using scan_none e (by omega)))
  | some h =>
    obtain ⟨h1, h2, h3, h4⟩ := scan_some e
    cases hr : isRun h.word
    · refine .inl ⟨_, _, _, h1, hr, ?_⟩
      simp [span, hr] at h4; omega
    · refine .inr (.inl ⟨_, _, _, h1, hr, ?_, ?_⟩)
      · omega
      · simp [span, hr] at h4; omega

/-! ### Unit streams of the pieces -/

theorem units_zeroRun {n : Nat} (h : n ≤ maxRun wd) : units (zeroRun wd n) = List.replicate n 0 := by
  rw [zeroRun]
  split
  · subst_vars; rfl
  · simp [wordUnits_mkRun h, fillWord]

theorem units_replicate_run (m : Nat) :
    units (List.replicate m (mkRun false (maxRun wd) : Word wd)) = List.replicate (m * maxRun wd) 0 := by
  induction m with
  | zero => simp
  | succ m ih =>
    rw [List.replicate_succ, units_cons, ih, wordUnits_mkRun (Nat.le_refl _), Nat.add_mul, Nat.one_mul,
      Nat.add_comm, ← List.replicate_append_replicate]
    rfl

/-- The last padding run is not empty and fits (R153, R155). -/
theorem padding_bounds {gap : Nat} (h : gap ≠ 0) :
    (gap - 1) / maxRun wd * maxRun wd + 1 ≤ gap ∧ gap - (gap - 1) / maxRun wd * maxRun wd ≤ maxRun wd := by
  have h1 := Nat.div_add_mod (gap - 1) (maxRun wd)
  have h2 := Nat.mod_lt (gap - 1) (maxRun_pos wd)
  rw [Nat.mul_comm] at h1
  omega

theorem units_zeroPadding (gap : Nat) : units (zeroPadding wd gap) = List.replicate gap 0 := by
  rw [zeroPadding]
  split
  · subst_vars; rfl
  · rename_i h
    have hb := padding_bounds (wd := wd) h
    rw [units_append, units_replicate_run, units_cons, units_nil, List.append_nil, wordUnits_mkRun hb.2]
    simp only [fillWord, Bool.false_eq_true, if_false, List.replicate_append_replicate]
    congr 1
    omega

theorem units_appendGap (ws : List (Word wd)) (gap : Nat) :
    units (appendGap ws gap) = units ws ++ List.replicate gap 0 := by
  rw [appendGap]
  split
  · rename_i w hw
    have hl := List.dropLast_append_getLast? w hw
    split
    · rename_i h
      simp only [Bool.and_eq_true, Bool.not_eq_true', decide_eq_true_eq] at h
      obtain ⟨⟨⟨_, h2⟩, h3⟩, h4⟩ := h
      conv_rhs => rw [← hl]
      simp only [units_append, units_cons, units_nil, List.append_nil, List.append_assoc]
      rw [wordUnits_mkRun h4, wordUnits_run h2, h3]
      simp [fillWord, List.replicate_append_replicate]
    · simp [units_zeroPadding]
  · simp [units_zeroPadding]

theorem fusePreceding_units (before : List (Word wd)) :
    units (fusePreceding before).1 ++ List.replicate (fusePreceding before).2 (allOnes wd)
      = units before ++ [allOnes wd] ∧ 1 ≤ (fusePreceding before).2 ∧ (fusePreceding before).2 ≤ maxRun wd := by
  have h1 := maxRun_pos wd
  rw [fusePreceding]
  split
  · rename_i w hw
    have hl := List.dropLast_append_getLast? w hw
    split
    · rename_i h
      simp only [Bool.and_eq_true, decide_eq_true_eq] at h
      obtain ⟨⟨h2, h3⟩, h4⟩ := h
      refine ⟨?_, by simp, h4⟩
      conv_rhs => rw [← hl]
      simp only [units_append, units_cons, units_nil, List.append_nil, List.append_assoc]
      rw [wordUnits_run h2, h3, List.replicate_succ']
      rfl
    · exact ⟨rfl, Nat.le_refl _, h1⟩
  · exact ⟨rfl, Nat.le_refl _, h1⟩

theorem fuseFollowing_units (n : Nat) (after : List (Word wd)) (hn : n ≤ maxRun wd) :
    List.replicate (fuseFollowing n after).1 (allOnes wd) ++ units (fuseFollowing n after).2
      = List.replicate n (allOnes wd) ++ units after
    ∧ n ≤ (fuseFollowing n after).1 ∧ (fuseFollowing n after).1 ≤ maxRun wd := by
  cases after with
  | nil => exact ⟨rfl, Nat.le_refl _, hn⟩
  | cons w ws =>
    rw [fuseFollowing]
    split
    · rename_i h
      simp only [Bool.and_eq_true, decide_eq_true_eq] at h
      obtain ⟨⟨h2, h3⟩, h4⟩ := h
      refine ⟨?_, by simp, h4⟩
      rw [units_cons, wordUnits_run h2, h3, ← List.append_assoc]
      simp [fillWord, List.replicate_append_replicate]
    · exact ⟨rfl, Nat.le_refl _, hn⟩

theorem units_insertLiteral (before after : List (Word wd)) {w : Word wd} {k : Nat} (hw : isRun w = false)
    (hk : k < base wd) :
    units (insertLiteral before w after k) = units before ++ (w ||| bitWord wd k) :: units after := by
  have hr : isRun (w ||| bitWord wd k) = false := by rw [isRun_or, hw, isRun_bitWord hk]; rfl
  rw [insertLiteral]
  split
  · simp [wordUnits_literal hr]
  · rename_i h
    have e : w ||| bitWord wd k = allOnes wd := by simpa using h
    obtain ⟨a1, a2, a3⟩ := fusePreceding_units before
    obtain ⟨b1, b2, b3⟩ := fuseFollowing_units (fusePreceding before).2 after a3
    rw [e, units_append, units_cons, wordUnits_mkRun b3]
    show _ ++ (List.replicate _ (allOnes wd) ++ _) = _
    rw [b1, ← List.append_assoc, a1]
    simp

theorem units_splitRun (before after : List (Word wd)) {t n k : Nat} (ht : t < n) (hn : n ≤ maxRun wd)
    (hk : k < base wd) :
    units (splitRun before after t n k)
      = (units before ++ List.replicate t 0) ++ bitWord wd k :: (List.replicate (n - 1 - t) 0 ++ units after) := by
  rw [splitRun]
  simp [units_zeroRun (wd := wd) (show t ≤ maxRun wd by omega),
    units_zeroRun (wd := wd) (show n - 1 - t ≤ maxRun wd by omega), wordUnits_literal (isRun_bitWord hk)]

theorem allOnes_or_bit {k : Nat} (hk : k < base wd) : allOnes wd ||| bitWord wd k = allOnes wd := by
  apply literal_ext
  · rw [isRun_or, isRun_allOnes, isRun_bitWord hk]; rfl
  · exact isRun_allOnes wd
  · intro j hj
    simp [allOnes_getLsbD, hj]

theorem replicate_split (α : Type) (x : α) {t n : Nat} (h : t < n) :
    List.replicate n x = List.replicate t x ++ x :: List.replicate (n - 1 - t) x := by
  rw [← List.replicate_succ, List.replicate_append_replicate]
  congr 1; omega

/-- INSERT sets one bit of one unit of the stream, the stream being extended by all-zero units where it ends
before that unit. -/
theorem units_insertWords (ws : List (Word wd)) {p : Nat} (hp : 1 ≤ p) :
    ∃ L x R z, units ws ++ List.replicate z 0 = L ++ x :: R ∧ L.length = unitOf wd p - 1
      ∧ units (insertWords ws p) = L ++ (x ||| bitWord wd (bitOf wd p)) :: R := by
  have hk := bitOf_lt wd p
  rcases insertWords_cases ws p (unit_bit wd hp).1 with
    ⟨before, w, after, rfl, hw, hu⟩ | ⟨before, w, after, rfl, hw, h1, h2⟩ | h
  · refine ⟨units before, w, units after, 0, by simp [wordUnits_literal hw], ?_, ?_⟩
    · rw [length_units]; omega
    · rw [insertWords_literal hw hu, units_insertLiteral _ _ hw hk]
  · have ht : unitOf wd p - totalUnits before - 1 < runLen w := by omega
    have hrep : units (before ++ w :: after)
        = (units before ++ List.replicate (unitOf wd p - totalUnits before - 1) (fillWord wd (runOnes w)))
          ++ fillWord wd (runOnes w)
          :: (List.replicate (runLen w - 1 - (unitOf wd p - totalUnits before - 1)) (fillWord wd (runOnes w))
            ++ units after) := by
      rw [units_append, units_cons, wordUnits_run hw, replicate_split _ _ ht]
      simp
    refine ⟨_, _, _, 0, (List.append_nil _).trans hrep, ?_, ?_⟩
    · simp [length_units]; omega
    · cases ho : runOnes w
      · rw [insertWords_zeros hw ho h1 h2, units_splitRun _ _ ht (runLen_le w) hk]
        simp [fillWord]
      · rw [insertWords_ones hw ho h1 h2, hrep, ho]
        simp [fillWord, allOnes_or_bit hk]
  · refine ⟨units ws ++ List.replicate (unitOf wd p - 1 - totalUnits ws) 0, 0, [],
      unitOf wd p - 1 - totalUnits ws + 1, ?_, ?_, ?_⟩
    · rw [List.replicate_succ']; simp
    · simp [length_units]; omega
    · rw [insertWords_append h, appendUnit, units_append, units_appendGap]
      simp [wordUnits_literal (isRun_bitWord hk)]

/-- INSERT adds its position to the position set and nothing else (R159). -/
theorem Pos_insertWords (ws : List (Word wd)) {p : Nat} (hp : 1 ≤ p) : Pos (insertWords ws p) = Pos ws ∪ {p} := by
  obtain ⟨L, x, R, z, h1, h2, h3⟩ := units_insertWords ws hp
  exact Pos_of_set_bit hp h1 h2 h3

end Sys2Proof.Machine
end

