-- ==== Sys2Proof/Laws/InsertShape.lean ====
section
/-! SUPPORT. The form INSERT keeps: no run of length 0, a change of at most two words, and canonical words up to the
MAXRUN limit (R159, R160). -/

namespace Sys2Proof.Machine

variable {wd : Width}

theorem isEmptyRun_literal {w : Word wd} (h : isRun w = false) : isEmptyRun w = false := by simp [isEmptyRun, h]

theorem isEmptyRun_mkRun {f : Bool} {n : Nat} (h0 : 1 ≤ n) (h : n ≤ maxRun wd) :
    isEmptyRun (mkRun f n : Word wd) = false := by
  simp [isEmptyRun, runLen_mkRun h]; omega

theorem runLen_pos {w : Word wd} (h : isEmptyRun w = false) (hr : isRun w = true) : 1 ≤ runLen w := by
  simp [isEmptyRun, hr] at h; omega

theorem WordsOk.append {xs ys : List (Word wd)} : WordsOk (xs ++ ys) ↔ WordsOk xs ∧ WordsOk ys := by
  simp [WordsOk, or_imp, forall_and]

theorem WordsOk.cons {w : Word wd} {ws : List (Word wd)} : WordsOk (w :: ws) ↔ isEmptyRun w = false ∧ WordsOk ws := by
  simp [WordsOk]

theorem WordsOk.nil : WordsOk ([] : List (Word wd)) := by simp [WordsOk]

/-! ### The pieces -/

/-- What the preceding side of a collapse can be (R147). -/
theorem fusePreceding_cases (before : List (Word wd)) :
    (fusePreceding before = (before, 1)
      ∧ ∀ v ∈ before.getLast?, isRun v = true → runOnes v = true → maxRun wd < runLen v + 1)
    ∨ ∃ rest v, before = rest ++ [v] ∧ isRun v = true ∧ runOnes v = true ∧ runLen v + 1 ≤ maxRun wd
        ∧ fusePreceding before = (rest, runLen v + 1) := by
  rw [fusePreceding]
  split
  · rename_i w hw
    split
    · rename_i h
      simp only [Bool.and_eq_true, decide_eq_true_eq] at h
      exact .inr ⟨_, w, (List.dropLast_append_getLast? w hw).symm, h.1.1, h.1.2, h.2, rfl⟩
    · rename_i h
      refine .inl ⟨rfl, fun v hv h1 h2 => ?_⟩
      have e : w = v := by simpa using hw.symm.trans hv
      subst e
      simp [h1, h2] at h; omega
  · rename_i h
    refine .inl ⟨rfl, fun v hv => ?_⟩
    rw [h] at hv; cases hv

/-- What the following side of a collapse can be (R148). -/
theorem fuseFollowing_cases (n : Nat) (after : List (Word wd)) :
    (fuseFollowing n after = (n, after)
      ∧ ∀ v ∈ after.head?, isRun v = true → runOnes v = true → maxRun wd < n + runLen v)
    ∨ ∃ v rest, after = v :: rest ∧ isRun v = true ∧ runOnes v = true ∧ n + runLen v ≤ maxRun wd
        ∧ fuseFollowing n after = (n + runLen v, rest) := by
  cases after with
  | nil => exact .inl ⟨rfl, by simp⟩
  | cons w ws =>
    rw [fuseFollowing]
    split
    · rename_i h
      simp only [Bool.and_eq_true, decide_eq_true_eq] at h
      exact .inr ⟨w, ws, rfl, h.1.1, h.1.2, h.2, rfl⟩
    · rename_i h
      refine .inl ⟨rfl, fun v hv h1 h2 => ?_⟩
      simp at hv; subst hv
      simp [h1, h2] at h; omega

/-- For the gap of a valid position the padding is one run word (R155). -/
theorem zeroPadding_eq {gap : Nat} (h : gap ≤ maxRun wd) : zeroPadding wd gap = zeroRun wd gap := by
  rw [zeroPadding, zeroRun]
  split
  · rfl
  · rw [Nat.div_eq_of_lt (by omega)]; simp

/-- What padding with a gap can be, for the gap of a valid position (R153, R154). -/
theorem appendGap_cases (ws : List (Word wd)) {gap : Nat} (h : gap ≤ maxRun wd) :
    (appendGap ws gap = ws ++ zeroRun wd gap
      ∧ ∀ v ∈ ws.getLast?, 1 ≤ gap → isRun v = true → runOnes v = false → maxRun wd < runLen v + gap)
    ∨ ∃ rest v, ws = rest ++ [v] ∧ isRun v = true ∧ runOnes v = false ∧ 1 ≤ gap ∧ runLen v + gap ≤ maxRun wd
        ∧ appendGap ws gap = rest ++ [mkRun false (runLen v + gap)] := by
  rw [appendGap]
  split
  · rename_i w hw
    split
    · rename_i hc
      simp only [Bool.and_eq_true, Bool.not_eq_true', decide_eq_true_eq] at hc
      exact .inr ⟨_, w, (List.dropLast_append_getLast? w hw).symm, hc.1.1.2, hc.1.2, hc.1.1.1, hc.2, rfl⟩
    · rename_i hc
      refine .inl ⟨by rw [zeroPadding_eq h], fun v hv h0 h1 h2 => ?_⟩
      have e : w = v := by simpa using hw.symm.trans hv
      subst e
      simp [h1, h2] at hc; omega
  · rename_i hn
    refine .inl ⟨by rw [zeroPadding_eq h], fun v hv => ?_⟩
    rw [hn] at hv; cases hv

/-! ### No run of length 0 -/

theorem WordsOk.zeroRun {n : Nat} (h : n ≤ maxRun wd) : WordsOk (zeroRun wd n) := by
  rw [Machine.zeroRun]
  split
  · exact .nil
  · exact WordsOk.cons.2 ⟨isEmptyRun_mkRun (by omega) h, .nil⟩

theorem WordsOk.insertLiteral {before after : List (Word wd)} {w : Word wd} {k : Nat} (hw : isRun w = false)
    (hk : k < base wd) (hb : WordsOk before) (ha : WordsOk after) : WordsOk (insertLiteral before w after k) := by
  rw [Machine.insertLiteral]
  split
  · refine WordsOk.append.2 ⟨hb, WordsOk.cons.2 ⟨isEmptyRun_literal ?_, ha⟩⟩
    rw [isRun_or, hw, isRun_bitWord hk]; rfl
  · have h1 := (fusePreceding_units before).2
    have h2 := (fuseFollowing_units (fusePreceding before).2 after h1.2).2
    refine WordsOk.append.2 ⟨?_, WordsOk.cons.2 ⟨isEmptyRun_mkRun (by omega) h2.2, ?_⟩⟩
    · rcases fusePreceding_cases before with ⟨e, _⟩ | ⟨rest, v, rfl, _, _, _, e⟩ <;> rw [e]
      · exact hb
      · exact (WordsOk.append.1 hb).1
    · rcases fuseFollowing_cases (fusePreceding before).2 after with ⟨e, _⟩ | ⟨v, rest, rfl, _, _, _, e⟩ <;> rw [e]
      · exact ha
      · exact (WordsOk.cons.1 ha).2

theorem gap_le {ws : List (Word wd)} {p : Nat} (h : p ≤ maxPos wd) :
    unitOf wd p - 1 - totalUnits ws ≤ maxRun wd := by
  have := unitOf_le_maxUnit wd h
  have := maxUnit_lt_maxRun wd
  omega

/-- INSERT of a valid position produces no run of length 0 (R159, R161). -/
theorem WordsOk.insertWords {ws : List (Word wd)} {p : Nat} (h1 : 1 ≤ p) (h2 : p ≤ maxPos wd) (hw : WordsOk ws) :
    WordsOk (insertWords ws p) := by
  have hk := bitOf_lt wd p
  rcases insertWords_cases ws p (unit_bit wd h1).1 with
    ⟨before, w, after, rfl, hr, hu⟩ | ⟨before, w, after, rfl, hr, ha, hb⟩ | h
  · rw [insertWords_literal hr hu]
    have := WordsOk.append.1 hw
    exact .insertLiteral hr hk this.1 (WordsOk.cons.1 this.2).2
  · have hws := WordsOk.append.1 hw
    have hl := runLen_le w
    cases ho : runOnes w
    · rw [insertWords_zeros hr ho ha hb, splitRun]
      refine WordsOk.append.2 ⟨WordsOk.append.2 ⟨hws.1, WordsOk.append.2 ⟨.zeroRun (by omega), ?_⟩⟩,
        (WordsOk.cons.1 hws.2).2⟩
      exact WordsOk.cons.2 ⟨isEmptyRun_literal (isRun_bitWord hk), .zeroRun (by omega)⟩
    · rwa [insertWords_ones hr ho ha hb]
  · rw [insertWords_append h, appendUnit]
    have hg := gap_le (ws := ws) h2
    refine WordsOk.append.2 ⟨?_, WordsOk.cons.2 ⟨isEmptyRun_literal (isRun_bitWord hk), .nil⟩⟩
    rcases appendGap_cases ws hg with ⟨e, _⟩ | ⟨rest, v, rfl, _, _, h4, h5, e⟩ <;> rw [e]
    · exact WordsOk.append.2 ⟨hw, .zeroRun hg⟩
    · exact WordsOk.append.2 ⟨(WordsOk.append.1 hw).1, WordsOk.cons.2 ⟨isEmptyRun_mkRun (by omega) h5, .nil⟩⟩

/-! ### The change of length -/

theorem length_zeroRun_le (n : Nat) : (zeroRun wd n).length ≤ 1 := by rw [zeroRun]; split <;> simp

/-- One INSERT changes the number of words by at most two, either way (R160). -/
theorem length_insertWords {ws : List (Word wd)} {p : Nat} (h1 : 1 ≤ p) (h2 : p ≤ maxPos wd) :
    (insertWords ws p).length ≤ ws.length + 2 ∧ ws.length ≤ (insertWords ws p).length + 2 := by
  rcases insertWords_cases ws p (unit_bit wd h1).1 with
    ⟨before, w, after, rfl, hr, hu⟩ | ⟨before, w, after, rfl, hr, ha, hb⟩ | h
  · rw [insertWords_literal hr hu, insertLiteral]
    split
    · simp
    · have hl : (fusePreceding before).1.length ≤ before.length
          ∧ before.length ≤ (fusePreceding before).1.length + 1 := by
        rcases fusePreceding_cases before with ⟨e, _⟩ | ⟨rest, v, rfl, _, _, _, e⟩ <;> rw [e] <;> simp
      have hr : (fuseFollowing (fusePreceding before).2 after).2.length ≤ after.length
          ∧ after.length ≤ (fuseFollowing (fusePreceding before).2 after).2.length + 1 := by
        rcases fuseFollowing_cases (fusePreceding before).2 after with ⟨e, _⟩ | ⟨v, rest, rfl, _, _, _, e⟩ <;>
          rw [e] <;> simp
      simp only [List.length_append, List.length_cons]
      omega
  · cases ho : runOnes w
    · rw [insertWords_zeros hr ho ha hb, splitRun]
      have a := length_zeroRun_le (wd := wd) (unitOf wd p - totalUnits before - 1)
      have b := length_zeroRun_le (wd := wd) (runLen w - 1 - (unitOf wd p - totalUnits before - 1))
      simp; omega
    · rw [insertWords_ones hr ho ha hb]; simp
  · rw [insertWords_append h, appendUnit]
    have hg := gap_le (ws := ws) h2
    have a := length_zeroRun_le (wd := wd) (unitOf wd p - 1 - totalUnits ws)
    rcases appendGap_cases ws hg with ⟨e, _⟩ | ⟨rest, v, rfl, _, _, h4, h5, e⟩ <;> rw [e]
    · simp; omega
    · simp

/-! ### Canonical words -/

theorem apart_literal_left {v w : Word wd} (h : isRun v = false) : apart v w = true := by simp [apart, h]

theorem apart_literal_right {v w : Word wd} (h : isRun w = false) : apart v w = true := by simp [apart, h]

theorem apartOrFull_of_apart {v w : Word wd} (h : apart v w = true) : apartOrFull v w = true := by
  simp [apartOrFull, h]

theorem apart_runs {v w : Word wd} (h : apart v w = true) (hv : isRun v = true) (hw : isRun w = true) :
    runOnes v ≠ runOnes w := by
  simpa [apart, hv, hw] using h

theorem apart_of_fill {v w : Word wd} (h : isRun v = true → isRun w = true → runOnes v ≠ runOnes w) :
    apart v w = true := by
  simp only [apart, Bool.not_eq_true', Bool.and_eq_false_iff, beq_eq_false_iff_ne, ne_eq]
  by_cases hv : isRun v = true
  · by_cases hw : isRun w = true
    · exact .inr (h hv hw)
    · exact .inl (.inr (by simpa using hw))
  · exact .inl (.inl (by simpa using hv))

theorem apartOrFull_of_long {v w : Word wd} (h : maxRun wd < runLen v + runLen w) : apartOrFull v w = true := by
  simp [apartOrFull, h]

theorem canonicalWord_run {w : Word wd} (h : isRun w = true) : canonicalWord w = true := by simp [canonicalWord, h]

theorem canonicalWord_literal {w : Word wd} (h0 : w ≠ 0) (h1 : w ≠ allOnes wd) : canonicalWord w = true := by
  rw [canonicalWord, decide_eq_true h0, decide_eq_true h1, Bool.and_self, Bool.or_true]

theorem canonicalWord_bit {k : Nat} (h : k < base wd) : canonicalWord (bitWord wd k) = true :=
  canonicalWord_literal (bitWord_ne_zero h) (bitWord_ne_allOnes h)

theorem isChain_mono {xs : List (Word wd)} (h : xs.IsChain fun v w => apart v w = true) :
    xs.IsChain fun v w => apartOrFull v w = true :=
  h.imp fun _ _ => apartOrFull_of_apart

theorem Canonical.upToLimit {ws : List (Word wd)} (h : Canonical ws) : CanonicalUpToLimit ws :=
  ⟨h.1, h.2.1, isChain_mono h.2.2⟩

theorem apartOrOnesFull_of_apart {v w : Word wd} (h : apart v w = true) : apartOrOnesFull v w = true := by
  simp [apartOrOnesFull, h]

theorem apartOrOnesFull_of_long {v w : Word wd} (ho : runOnes v = true) (h : maxRun wd < runLen v + runLen w) :
    apartOrOnesFull v w = true := by
  simp [apartOrOnesFull, ho, h]

theorem apartOrFull_of_ones {v w : Word wd} (h : apartOrOnesFull v w = true) : apartOrFull v w = true := by
  simp only [apartOrOnesFull, apartOrFull, Bool.or_eq_true, Bool.and_eq_true] at h ⊢
  exact h.imp id And.right

theorem isChain_ones {xs : List (Word wd)} (h : xs.IsChain fun v w => apart v w = true) :
    xs.IsChain fun v w => apartOrOnesFull v w = true :=
  h.imp fun _ _ => apartOrOnesFull_of_apart

theorem Canonical.afterInsert {ws : List (Word wd)} (h : Canonical ws) : CanonicalAfterInsert ws :=
  ⟨h.1, h.2.1, isChain_ones h.2.2⟩

theorem CanonicalAfterInsert.upToLimit {ws : List (Word wd)} (h : CanonicalAfterInsert ws) : CanonicalUpToLimit ws :=
  ⟨h.1, h.2.1, h.2.2.imp fun _ _ => apartOrFull_of_ones⟩

/-- Puts words between two parts of a canonical sequence: what the new middle part must meet. -/
theorem chain_join {xs ys zs : List (Word wd)} (hx : xs.IsChain fun v w => apartOrOnesFull v w = true)
    (hy : ys.IsChain fun v w => apartOrOnesFull v w = true) (hz : zs.IsChain fun v w => apartOrOnesFull v w = true)
    (hne : ys ≠ []) (h1 : ∀ v ∈ xs.getLast?, ∀ w ∈ ys.head?, apartOrOnesFull v w = true)
    (h2 : ∀ v ∈ ys.getLast?, ∀ w ∈ zs.head?, apartOrOnesFull v w = true) :
    (xs ++ ys ++ zs).IsChain fun v w => apartOrOnesFull v w = true := by
  refine List.isChain_append.2 ⟨List.isChain_append.2 ⟨hx, hy, h1⟩, hz, fun v hv w hw => h2 v ?_ w hw⟩
  rwa [List.getLast?_append_of_ne_nil _ hne] at hv

theorem canonical_insertLiteral {before after : List (Word wd)} {w : Word wd} {k : Nat} (hw : isRun w = false)
    (hk : k < base wd) (hc : Canonical (before ++ w :: after)) :
    CanonicalAfterInsert (insertLiteral before w after k) := by
  obtain ⟨h1, h2, h3⟩ := hc
  have hok := WordsOk.append.1 h1
  obtain ⟨c1, c2, c3⟩ := List.isChain_append.1 h3
  have c2' := (List.isChain_cons.1 c2).2
  refine ⟨.insertLiteral hw hk hok.1 (WordsOk.cons.1 hok.2).2, ?_, ?_⟩
  · intro v hv
    rw [insertLiteral] at hv
    split at hv
    · rename_i hne
      rcases List.mem_append.1 hv with hv | hv
      · exact h2 v (List.mem_append_left _ hv)
      · rcases List.mem_cons.1 hv with rfl | hv
        · have h0 : w ||| bitWord wd k ≠ 0 := by
            intro e
            have := congrArg (fun x : Word wd => x.getLsbD k) e
            simp [bitWord_getLsbD hk] at this
          exact canonicalWord_literal h0 hne
        · exact h2 v (List.mem_append_right _ (List.mem_cons_of_mem _ hv))
    · have hf := (fusePreceding_units before).2
      have hf2 := (fuseFollowing_units (fusePreceding before).2 after hf.2).2
      rcases List.mem_append.1 hv with hv | hv
      · refine h2 v (List.mem_append_left _ ?_)
        rcases fusePreceding_cases before with ⟨e, _⟩ | ⟨rest, x, rfl, _, _, _, e⟩ <;> rw [e] at hv
        · exact hv
        · exact List.mem_append_left _ hv
      · rcases List.mem_cons.1 hv with rfl | hv
        · exact canonicalWord_run (isRun_mkRun hf2.2)
        · refine h2 v (List.mem_append_right _ (List.mem_cons_of_mem _ ?_))
          rcases fuseFollowing_cases (fusePreceding before).2 after with ⟨e, _⟩ | ⟨x, rest, rfl, _, _, _, e⟩ <;>
            rw [e] at hv
          · exact hv
          · exact List.mem_cons_of_mem _ hv
  · rw [insertLiteral]
    split
    · have hr : isRun (w ||| bitWord wd k) = false := by rw [isRun_or, hw, isRun_bitWord hk]; rfl
      rw [show before ++ (w ||| bitWord wd k) :: after = before ++ [w ||| bitWord wd k] ++ after by simp]
      refine chain_join (isChain_ones c1) (by simp) (isChain_ones c2') (by simp) ?_ ?_
      · intro v _ x hx; simp at hx; subst hx; exact apartOrOnesFull_of_apart (apart_literal_right hr)
      · intro v hv x _; simp at hv; subst hv; exact apartOrOnesFull_of_apart (apart_literal_left hr)
    · have hf := (fusePreceding_units before).2
      have hf2 := (fuseFollowing_units (fusePreceding before).2 after hf.2).2
      have hrun := isRun_mkRun (f := true) hf2.2
      rw [show ∀ (xs ys : List (Word wd)) (x : Word wd), xs ++ x :: ys = xs ++ [x] ++ ys by simp]
      refine chain_join ?_ (by simp) ?_ (by simp) ?_ ?_
      · rcases fusePreceding_cases before with ⟨e, _⟩ | ⟨rest, x, rfl, _, _, _, e⟩ <;> rw [e]
        · exact isChain_ones c1
        · exact isChain_ones (List.isChain_append.1 c1).1
      · rcases fuseFollowing_cases (fusePreceding before).2 after with ⟨e, _⟩ | ⟨x, rest, rfl, _, _, _, e⟩ <;> rw [e]
        · exact isChain_ones c2'
        · exact isChain_ones (List.isChain_cons.1 c2').2
      · intro v hv x hx
        simp at hx; subst hx
        rcases fusePreceding_cases before with ⟨e, hfull⟩ | ⟨rest, y, rfl, hy1, hy2, _, e⟩ <;> rw [e] at hv
        · by_cases hv1 : isRun v = true ∧ runOnes v = true
          · have := hfull v hv hv1.1 hv1.2
            apply apartOrOnesFull_of_long hv1.2
            rw [runLen_mkRun hf2.2]; omega
          · apply apartOrOnesFull_of_apart; apply apart_of_fill
            intro a _; rw [runOnes_mkRun hf2.2]; intro b; exact hv1 ⟨a, b⟩
        · have := (List.isChain_append.1 c1).2.2 v hv y (by simp)
          apply apartOrOnesFull_of_apart; apply apart_of_fill
          intro a _; rw [runOnes_mkRun hf2.2, ← hy2]; exact apart_runs this a hy1
      · intro v hv x hx
        simp at hv; subst hv
        rcases fuseFollowing_cases (fusePreceding before).2 after with ⟨e, hfull⟩ | ⟨y, rest, rfl, hy1, hy2, _, e⟩
        · rw [e] at hx
          by_cases hx1 : isRun x = true ∧ runOnes x = true
          · have := hfull x hx hx1.1 hx1.2
            apply apartOrOnesFull_of_long (runOnes_mkRun hf2.2)
            rw [runLen_mkRun hf2.2]; omega
          · apply apartOrOnesFull_of_apart; apply apart_of_fill
            intro _ a; rw [runOnes_mkRun hf2.2]; intro b; exact hx1 ⟨a, b.symm⟩
        · rw [e] at hx
          have := (List.isChain_cons.1 c2').1 x hx
          apply apartOrOnesFull_of_apart; apply apart_of_fill
          intro _ a; rw [runOnes_mkRun hf2.2, ← hy2]; exact apart_runs this hy1 a

theorem zeroRun_mem {n : Nat} (h : n ≤ maxRun wd) {v : Word wd} (hv : v ∈ zeroRun wd n) :
    isRun v = true ∧ runOnes v = false := by
  rw [zeroRun] at hv
  split at hv
  · cases hv
  · simp at hv; subst hv; exact ⟨isRun_mkRun h, runOnes_mkRun h⟩

theorem zeroRun_chain (n : Nat) : (zeroRun wd n).IsChain fun v w => apartOrOnesFull v w = true := by
  rw [zeroRun]; split <;> simp

theorem canonical_splitRun {before after : List (Word wd)} {w : Word wd} {t k : Nat} (hr : isRun w = true)
    (ho : runOnes w = false) (ht : t < runLen w) (hk : k < base wd) (hc : Canonical (before ++ w :: after))
    (hok : WordsOk (splitRun before after t (runLen w) k)) :
    CanonicalAfterInsert (splitRun before after t (runLen w) k) := by
  obtain ⟨_, h2, h3⟩ := hc
  obtain ⟨c1, c2, c3⟩ := List.isChain_append.1 h3
  have hl := runLen_le w
  have hbit := isRun_bitWord hk
  refine ⟨hok, ?_, ?_⟩
  · intro v hv
    simp only [splitRun, List.mem_append, List.mem_cons] at hv
    rcases hv with (hv | hv | rfl | hv) | hv
    · exact h2 v (List.mem_append_left _ hv)
    · exact canonicalWord_run (zeroRun_mem (by omega) hv).1
    · exact canonicalWord_bit hk
    · exact canonicalWord_run (zeroRun_mem (by omega) hv).1
    · exact h2 v (List.mem_append_right _ (List.mem_cons_of_mem _ hv))
  · refine chain_join (isChain_ones c1) ?_ (isChain_ones (List.isChain_cons.1 c2).2) (by simp) ?_ ?_
    · rw [show ∀ (xs ys : List (Word wd)) (x : Word wd), xs ++ x :: ys = xs ++ [x] ++ ys by simp]
      refine chain_join (zeroRun_chain _) (by simp) (zeroRun_chain _) (by simp) ?_ ?_
      · intro v _ x hx; simp at hx; subst hx; exact apartOrOnesFull_of_apart (apart_literal_right hbit)
      · intro v hv x _; simp at hv; subst hv; exact apartOrOnesFull_of_apart (apart_literal_left hbit)
    · intro v hv x hx
      have hx' := List.mem_of_mem_head? hx
      apply apartOrOnesFull_of_apart
      have := c3 v hv w (by simp)
      rw [zeroRun] at hx
      split at hx
      · simp at hx; subst hx; exact apart_literal_right hbit
      · have hm := isRun_mkRun (f := false) (show t ≤ maxRun wd by omega)
        simp at hx; subst hx
        apply apart_of_fill
        intro a _; rw [runOnes_mkRun (by omega), ← ho]; exact apart_runs this a hr
    · intro v hv x hx
      apply apartOrOnesFull_of_apart
      have := (List.isChain_cons.1 c2).1 x hx
      rw [List.getLast?_append_of_ne_nil _ (by simp), zeroRun] at hv
      split at hv
      · simp at hv; subst hv; exact apart_literal_left hbit
      · simp at hv; subst hv
        apply apart_of_fill
        intro _ a; rw [runOnes_mkRun (by omega), ← ho]; exact apart_runs this hr a

/-- The units of the last word are among all of them. -/
theorem span_getLast_le {ws : List (Word wd)} {v : Word wd} (h : v ∈ ws.getLast?) : span v ≤ totalUnits ws := by
  have := List.dropLast_append_getLast? v h
  rw [← this]
  simp

theorem canonical_appendUnit {ws : List (Word wd)} {gap k : Nat} (hs : totalUnits ws + gap ≤ maxRun wd)
    (hk : k < base wd) (hc : Canonical ws) (hok : WordsOk (appendUnit ws gap k)) : CanonicalAfterInsert (appendUnit ws gap k) := by
  obtain ⟨_, h2, h3⟩ := hc
  have hg : gap ≤ maxRun wd := by omega
  have hbit := isRun_bitWord hk
  have key : (∀ v ∈ appendGap ws gap, canonicalWord v = true)
      ∧ (appendGap ws gap).IsChain fun v w => apartOrOnesFull v w = true := by
    rcases appendGap_cases ws hg with ⟨e, hfull⟩ | ⟨rest, v, rfl, hv1, hv2, h4, h5, e⟩ <;> rw [e]
    · constructor
      · intro v hv
        rcases List.mem_append.1 hv with hv | hv
        · exact h2 v hv
        · exact canonicalWord_run (zeroRun_mem hg hv).1
      · refine List.isChain_append.2 ⟨isChain_ones h3, zeroRun_chain _, fun v hv x hx => ?_⟩
        rw [zeroRun] at hx
        split at hx
        · cases hx
        · simp at hx; subst hx
          by_cases hv1 : isRun v = true ∧ runOnes v = false
          · have h4 := hfull v hv (by omega) hv1.1 hv1.2
            have h5 := span_getLast_le hv
            rw [span, if_pos hv1.1] at h5
            omega
          · apply apartOrOnesFull_of_apart; apply apart_of_fill
            intro a _; rw [runOnes_mkRun hg]; intro b; exact hv1 ⟨a, b⟩
    · obtain ⟨c1, _, c3⟩ := List.isChain_append.1 h3
      constructor
      · intro x hx
        rcases List.mem_append.1 hx with hx | hx
        · exact h2 x (List.mem_append_left _ hx)
        · simp at hx; subst hx; exact canonicalWord_run (isRun_mkRun h5)
      · refine List.isChain_append.2 ⟨isChain_ones c1, by simp, fun x hx y hy => ?_⟩
        simp at hy; subst hy
        have := c3 x hx v (by simp)
        apply apartOrOnesFull_of_apart; apply apart_of_fill
        intro a _; rw [runOnes_mkRun h5, ← hv2]; exact apart_runs this a hv1
  refine ⟨hok, ?_, ?_⟩
  · intro v hv
    rcases List.mem_append.1 hv with hv | hv
    · exact key.1 v hv
    · simp at hv; subst hv; exact canonicalWord_bit hk
  · refine List.isChain_append.2 ⟨key.2, by simp, fun v _ x hx => ?_⟩
    simp at hx; subst hx
    exact apartOrOnesFull_of_apart (apart_literal_right hbit)

/-- INSERT of a valid position into canonical words gives words that are canonical but for two all-ones runs
whose sum passes MAXRUN (R159 with R150; log entry 13). -/
theorem canonical_insertWords {ws : List (Word wd)} {p : Nat} (h1 : 1 ≤ p) (h2 : p ≤ maxPos wd)
    (hc : Canonical ws) : CanonicalAfterInsert (insertWords ws p) := by
  have hk := bitOf_lt wd p
  have hok := WordsOk.insertWords h1 h2 hc.1
  rcases insertWords_cases ws p (unit_bit wd h1).1 with
    ⟨before, w, after, rfl, hr, hu⟩ | ⟨before, w, after, rfl, hr, ha, hb⟩ | h
  · rw [insertWords_literal hr hu]
    exact canonical_insertLiteral hr hk hc
  · cases ho : runOnes w
    · rw [insertWords_zeros hr ho ha hb] at hok ⊢
      exact canonical_splitRun hr ho (by omega) hk hc hok
    · rw [insertWords_ones hr ho ha hb]; exact hc.afterInsert
  · rw [insertWords_append h] at hok ⊢
    have := unitOf_le_maxUnit wd h2
    have := maxUnit_lt_maxRun wd
    exact canonical_appendUnit (by omega) hk hc hok

/-- INSERT of a position that canonical words hold already changes no word (R157). -/
theorem insertWords_present {ws : List (Word wd)} {p : Nat} (hp : 1 ≤ p) (hc : ∀ w ∈ ws, canonicalWord w = true)
    (hm : p ∈ Pos ws) : insertWords ws p = ws := by
  have hk := bitOf_lt wd p
  have hbit := ((mem_Pos ws p).1 hm).2
  have e : unitOf wd p - 1 = (p - 1) / base wd := by
    rw [unitOf, ceilDiv, show p + base wd - 1 = (p - 1) + base wd by omega, Nat.add_div_right _ (base_pos wd),
      Nat.add_sub_cancel]
  rw [← e] at hbit
  change unitBit (units ws) (unitOf wd p - 1) (bitOf wd p) = true at hbit
  have hu := (unit_bit wd hp).1
  rcases insertWords_cases ws p hu with
    ⟨before, w, after, rfl, hr, hu'⟩ | ⟨before, w, after, rfl, hr, ha, hb⟩ | h
  · have hlen : (units before).length = unitOf wd p - 1 := by rw [length_units]; omega
    rw [unitBit, units_append, units_cons, wordUnits_literal hr, List.getElem?_append_right (by omega),
      ← hlen, Nat.sub_self] at hbit
    simp only [List.cons_append, List.getElem?_cons_zero] at hbit
    have hor : w ||| bitWord wd (bitOf wd p) = w := by
      apply BitVec.eq_of_getLsbD_eq
      intro i _
      rw [BitVec.getLsbD_or, bitWord_getLsbD hk]
      by_cases hi : i = bitOf wd p
      · subst hi; simp [hbit]
      · simp [hi]
    have hne : w ≠ allOnes wd := by
      have := hc w (by simp)
      simp [canonicalWord, hr] at this
      exact this.2
    rw [insertWords_literal hr hu', insertLiteral, hor]
    simp [hne]
  · cases ho : runOnes w
    · exfalso
      rw [unitBit, units_append, units_cons, wordUnits_run hr, ho, List.getElem?_append_right (by rw [length_units]; omega),
        List.getElem?_append_left (by rw [List.length_replicate, length_units]; omega)] at hbit
      rw [List.getElem?_replicate] at hbit
      split at hbit
      · rename_i hu2
        split at hu2 <;> simp [fillWord] at hu2
        subst hu2; simp at hbit
      · cases hbit
    · exact insertWords_ones hr ho ha hb
  · exfalso
    rw [unitBit, List.getElem?_eq_none (by rw [length_units]; omega)] at hbit
    cases hbit

end Sys2Proof.Machine
end

