-- ==== Sys2Proof/Laws/Merge.lean ====
section
/-! SUPPORT. The merge engine on word sequences (43_merge.md): what Emit, a cursor and the co-scan do to the unit
streams, why BOUND is never raised, and what the output looks like. -/

namespace Sys2Proof.Machine

variable {wd : Width}

/-! ### Word operators -/

theorem MergeOp.isRun_lit (op : MergeOp) {x y : Word wd} (hx : isRun x = false) (hy : isRun y = false) :
    isRun (op.lit x y) = false := by
  cases op
  · rw [MergeOp.lit, isRun_or, hx, hy]; rfl
  · rw [MergeOp.lit, isRun_and, hx, hy]; rfl

theorem MergeOp.lit_comm (op : MergeOp) (x y : Word wd) : op.lit x y = op.lit y x := by
  cases op
  · exact BitVec.or_comm x y
  · exact BitVec.and_comm x y

theorem MergeOp.fill_comm (op : MergeOp) (x y : Bool) : op.fill x y = op.fill y x := by
  cases op <;> cases x <;> cases y <;> rfl

theorem MergeOp.lit_fillWord (op : MergeOp) (f g : Bool) :
    op.lit (fillWord wd f) (fillWord wd g) = fillWord wd (op.fill f g) := by
  cases op <;> cases f <;> cases g <;> cases wd <;> decide

/-- The bit operation of a merge. -/
def MergeOp.bit (op : MergeOp) (x y : Bool) : Bool := op.fill x y

theorem MergeOp.getLsbD_lit (op : MergeOp) (x y : Word wd) (k : Nat) :
    (op.lit x y).getLsbD k = op.bit (x.getLsbD k) (y.getLsbD k) := by
  cases op
  · simp [MergeOp.lit, MergeOp.bit, MergeOp.fill]
  · simp [MergeOp.lit, MergeOp.bit, MergeOp.fill]

/-! ### Emit -/

theorem normalize_run (op : MergeOp) {w : Word wd} (h : isRun w = true) : normalize op w = w := by
  simp [normalize, h]

theorem wordUnits_normalize (op : MergeOp) (w : Word wd) : wordUnits (normalize op w) = wordUnits w := by
  unfold normalize
  split
  · rfl
  · rename_i hr
    have hr' : isRun w = false := by simpa using hr
    cases op
    · simp only
      split
      · rename_i e
        rw [wordUnits_mkRun (maxRun_pos wd), wordUnits_literal hr', e]
        rfl
      · rfl
    · simp only
      split
      · rename_i e
        rw [wordUnits_mkRun (maxRun_pos wd), wordUnits_literal hr', e]
        rfl
      · rfl

theorem isEmptyRun_normalize (op : MergeOp) {w : Word wd} (h : isEmptyRun w = false) :
    isEmptyRun (normalize op w) = false := by
  unfold normalize
  split
  · exact h
  · cases op <;> simp only <;> split <;>
      first | exact h | exact isEmptyRun_mkRun (Nat.le_refl _) (maxRun_pos wd)

/-- What Emit can do (R175, R177): fuse with the last word, or append. -/
theorem emit_cases {op : MergeOp} {limit : Nat} {w : Word wd} {out out' : List (Word wd)}
    (h : emit op limit w out = some out') :
    (∃ last older, out = last :: older ∧ isRun last = true ∧ isRun (normalize op w) = true
        ∧ runOnes last = runOnes (normalize op w) ∧ runLen last + runLen (normalize op w) ≤ maxRun wd
        ∧ out' = mkRun (runOnes (normalize op w)) (runLen last + runLen (normalize op w)) :: older)
    ∨ (out' = normalize op w :: out ∧ 1 + out.length + 1 ≤ limit
        ∧ ∀ last ∈ out.head?, isRun last = true → isRun (normalize op w) = true →
          runOnes last = runOnes (normalize op w) → maxRun wd < runLen last + runLen (normalize op w)) := by
  have hnew : ∀ {v : Word wd}, emitNew limit v out = some out' →
      out' = v :: out ∧ 1 + out.length + 1 ≤ limit := by
    intro v e
    rw [emitNew] at e
    split at e
    · cases e; exact ⟨rfl, by assumption⟩
    · cases e
  unfold emit at h
  cases out with
  | nil =>
    obtain ⟨e, hl⟩ := hnew h
    exact .inr ⟨e, hl, by simp⟩
  | cons last older =>
    simp only at h
    split at h
    · rename_i hc
      simp only [Bool.and_eq_true, beq_iff_eq, decide_eq_true_eq] at hc
      cases h
      exact .inl ⟨last, older, rfl, hc.1.1.1, hc.1.1.2, hc.1.2, hc.2, rfl⟩
    · rename_i hc
      obtain ⟨e, hl⟩ := hnew h
      refine .inr ⟨e, hl, fun x hx h1 h2 h3 => ?_⟩
      simp at hx; subst hx
      simp [h1, h2, h3] at hc
      rw [h3] at *
      omega

/-- Emit raises BOUND only where the output has no room (R177). -/
theorem emit_isSome (op : MergeOp) {limit : Nat} (w : Word wd) {out : List (Word wd)}
    (h : 1 + out.length + 1 ≤ limit) : ∃ out', emit op limit w out = some out' := by
  unfold emit
  cases out with
  | nil => exact ⟨_, if_pos h⟩
  | cons last older =>
    simp only
    split
    · exact ⟨_, rfl⟩
    · exact ⟨_, if_pos h⟩

/-- Emit adds the units of its word to the output (R110, R175). -/
theorem emit_units {op : MergeOp} {limit : Nat} {w : Word wd} {out out' : List (Word wd)}
    (h : emit op limit w out = some out') : units out'.reverse = units out.reverse ++ wordUnits w := by
  rcases emit_cases h with ⟨last, older, rfl, h1, h2, h3, h4, rfl⟩ | ⟨rfl, _, _⟩
  · rw [← wordUnits_normalize op w]
    simp only [List.reverse_cons, units_append, units_cons, units_nil, List.append_nil]
    rw [wordUnits_mkRun h4, wordUnits_run h1, wordUnits_run h2, h3, List.append_assoc,
      List.replicate_append_replicate]
  · simp [wordUnits_normalize]

theorem emit_length {op : MergeOp} {limit : Nat} {w : Word wd} {out out' : List (Word wd)}
    (h : emit op limit w out = some out') : out'.length ≤ out.length + 1 := by
  rcases emit_cases h with ⟨last, older, rfl, _, _, _, _, rfl⟩ | ⟨rfl, _, _⟩ <;> simp

theorem emit_wordsOk {op : MergeOp} {limit : Nat} {w : Word wd} {out out' : List (Word wd)}
    (h : emit op limit w out = some out') (hw : isEmptyRun w = false) (ho : WordsOk out) : WordsOk out' := by
  have hn := isEmptyRun_normalize op hw
  rcases emit_cases h with ⟨last, older, rfl, h1, h2, h3, h4, rfl⟩ | ⟨rfl, _, _⟩
  · have := runLen_pos hn h2
    exact WordsOk.cons.2 ⟨isEmptyRun_mkRun (by omega) h4, (WordsOk.cons.1 ho).2⟩
  · exact WordsOk.cons.2 ⟨hn, ho⟩

/-! ### Cursors -/

/-- The value of each unit of a word. -/
def unitOfWord (w : Word wd) : Word wd := if isRun w then fillWord wd (runOnes w) else w

/-- The units a cursor has not yet consumed. -/
def restUnits (c : Cursor wd) : List (Word wd) :=
  match c.rest with
  | [] => []
  | w :: ws => List.replicate c.rem (unitOfWord w) ++ units ws

/-- What holds of a cursor on well-formed words: "`rem >= 1` on a cursor that is not done" (R179), and at most the
current word's span. -/
def CursorOk (c : Cursor wd) : Prop :=
  WordsOk c.rest ∧ ∀ w ∈ c.rest.head?, 1 ≤ c.rem ∧ c.rem ≤ span w

theorem wordUnits_eq_replicate (w : Word wd) : wordUnits w = List.replicate (span w) (unitOfWord w) := by
  rw [wordUnits, span, unitOfWord]; split <;> rfl

theorem restUnits_cursorAt (ws : List (Word wd)) : restUnits (cursorAt ws) = units ws := by
  cases ws with
  | nil => rfl
  | cons w ws => rw [units_cons, wordUnits_eq_replicate]; rfl

theorem span_pos {w : Word wd} (h : isEmptyRun w = false) : 1 ≤ span w := by
  rw [span]
  split
  · exact runLen_pos h (by assumption)
  · exact Nat.le_refl 1

theorem CursorOk.cursorAt {ws : List (Word wd)} (h : WordsOk ws) : CursorOk (cursorAt ws) := by
  cases ws with
  | nil => exact ⟨h, by simp [Machine.cursorAt]⟩
  | cons w ws =>
    refine ⟨h, fun x hx => ?_⟩
    simp [Machine.cursorAt] at hx; subst hx
    exact ⟨span_pos (WordsOk.cons.1 h).1, Nat.le_refl _⟩

theorem cursorAt_rest (ws : List (Word wd)) : (cursorAt ws).rest = ws := by cases ws <;> rfl

/-- `Take` consumes units (R171). -/
theorem takeUnits_spec {c : Cursor wd} {w : Word wd} {ws : List (Word wd)} {n : Nat} (hc : CursorOk c)
    (hr : c.rest = w :: ws) (h1 : 1 ≤ n) (h2 : n ≤ c.rem) :
    CursorOk (takeUnits c n)
      ∧ restUnits c = List.replicate n (unitOfWord w) ++ restUnits (takeUnits c n)
      ∧ (n = c.rem → (takeUnits c n).rest = ws)
      ∧ (n < c.rem → (takeUnits c n).rest = w :: ws) := by
  have hws := hc.1
  rw [hr] at hws
  have hrem := hc.2 w (by rw [hr]; rfl)
  by_cases e : n = c.rem
  · have et : takeUnits c n = cursorAt ws := by rw [takeUnits, if_pos (by omega), hr]; rfl
    rw [et, restUnits_cursorAt, cursorAt_rest]
    refine ⟨.cursorAt (WordsOk.cons.1 hws).2, ?_, fun _ => rfl, fun _ => by omega⟩
    rw [restUnits, hr, e]
  · have et : takeUnits c n = { c with rem := c.rem - n } := by rw [takeUnits, if_neg (by omega)]
    rw [et]
    refine ⟨⟨hc.1, fun x hx => ?_⟩, ?_, fun h => absurd h e, fun _ => hr⟩
    · rw [hr] at hx; simp at hx; subst hx
      simp only
      omega
    · rw [restUnits, restUnits, hr]
      simp only
      rw [← List.append_assoc, List.replicate_append_replicate]
      congr 2; omega

/-! ### The co-scan -/

theorem unitOfWord_literal {w : Word wd} (h : isRun w = false) : unitOfWord w = w := by simp [unitOfWord, h]

theorem unitOfWord_run {w : Word wd} (h : isRun w = true) : unitOfWord w = fillWord wd (runOnes w) := by
  simp [unitOfWord, h]

/-- A co-scan step emits the combination of the units it consumes, and uses up at least one current word (R178 to
R180, R190). -/
theorem stepWord_spec (op : MergeOp) {ca cb : Cursor wd} {wa wb : Word wd} {wsA wsB : List (Word wd)}
    (ha : CursorOk ca) (hb : CursorOk cb) (ra : ca.rest = wa :: wsA) (rb : cb.rest = wb :: wsB) :
    let e := stepWord op wa wb ca.rem cb.rem
    1 ≤ e.2 ∧ e.2 ≤ ca.rem ∧ e.2 ≤ cb.rem ∧ (e.2 = ca.rem ∨ e.2 = cb.rem) ∧ isEmptyRun e.1 = false
      ∧ wordUnits e.1 = List.replicate e.2 (op.lit (unitOfWord wa) (unitOfWord wb)) := by
  have hwa := ha.2 wa (by rw [ra]; rfl)
  have hwb := hb.2 wb (by rw [rb]; rfl)
  have hla := runLen_le wa
  have hlb := runLen_le wb
  intro e
  cases hA : isRun wa <;> cases hB : isRun wb
  · have hr := op.isRun_lit hA hB
    have he : e = (op.lit wa wb, 1) := by simp [e, stepWord, hA, hB]
    simp only [span, hA, hB] at hwa hwb
    rw [he, unitOfWord_literal hA, unitOfWord_literal hB]
    exact ⟨Nat.le_refl _, hwa.1, hwb.1, .inl (by simp at hwa; omega), isEmptyRun_literal hr,
      by simp [wordUnits_literal hr]⟩
  · have hr := op.isRun_lit hA (isRun_fillWord wd (runOnes wb))
    have he : e = (op.lit wa (fillWord wd (runOnes wb)), 1) := by simp [e, stepWord, hA, hB]
    simp only [span, hA, hB] at hwa hwb
    rw [he, unitOfWord_literal hA, unitOfWord_run hB]
    exact ⟨Nat.le_refl _, hwa.1, hwb.1, .inl (by simp at hwa; omega), isEmptyRun_literal hr,
      by simp [wordUnits_literal hr]⟩
  · have hr := op.isRun_lit hB (isRun_fillWord wd (runOnes wa))
    have he : e = (op.lit wb (fillWord wd (runOnes wa)), 1) := by simp [e, stepWord, hA, hB]
    simp only [span, hA, hB] at hwa hwb
    rw [he, unitOfWord_literal hB, unitOfWord_run hA, op.lit_comm (fillWord wd (runOnes wa))]
    exact ⟨Nat.le_refl _, hwa.1, hwb.1, .inr (by simp at hwb; omega), isEmptyRun_literal hr,
      by simp [wordUnits_literal hr]⟩
  · have he : e = (mkRun (op.fill (runOnes wa) (runOnes wb)) (min ca.rem cb.rem), min ca.rem cb.rem) := by
      simp [e, stepWord, hA, hB]
    simp only [span, hA, hB, if_true] at hwa hwb
    rw [he, unitOfWord_run hA, unitOfWord_run hB, op.lit_fillWord]
    refine ⟨by simp only; omega, by simp only; omega, by simp only; omega, by simp only; omega,
      isEmptyRun_mkRun (by omega) (by omega), wordUnits_mkRun (by omega)⟩

/-- The co-scan from any point: it ends with a cursor done, has consumed as many units of one operand as of the
other, has emitted their combination, and never raises BOUND (R184, R190). -/
theorem coScan_spec (op : MergeOp) {limit : Nat} (fuel : Nat) (m : MergeWork wd) (ha : CursorOk m.ca)
    (hb : CursorOk m.cb) (ho : WordsOk m.out) (hf : m.ca.rest.length + m.cb.rest.length ≤ fuel)
    (hl : m.out.length + m.ca.rest.length + m.cb.rest.length + 2 ≤ limit) :
    ∃ m' xs ys, coScan op limit fuel m = some m' ∧ CursorOk m'.ca ∧ CursorOk m'.cb ∧ WordsOk m'.out
      ∧ (m'.ca.rest = [] ∨ m'.cb.rest = [])
      ∧ m'.out.length + m'.ca.rest.length + m'.cb.rest.length
          ≤ m.out.length + m.ca.rest.length + m.cb.rest.length
      ∧ xs.length = ys.length ∧ restUnits m.ca = xs ++ restUnits m'.ca ∧ restUnits m.cb = ys ++ restUnits m'.cb
      ∧ units m'.out.reverse = units m.out.reverse ++ List.zipWith op.lit xs ys := by
  induction fuel generalizing m with
  | zero =>
    refine ⟨m, [], [], rfl, ha, hb, ho, .inl ?_, Nat.le_refl _, rfl, rfl, rfl, by simp⟩
    exact List.eq_nil_of_length_eq_zero (by omega)
  | succ fuel ih =>
    cases ra : m.ca.rest with
    | nil =>
      exact ⟨m, [], [], by simp [coScan, ra], ha, hb, ho, .inl ra, by simp [ra], rfl, rfl, rfl, by simp⟩
    | cons wa wsA =>
      cases rb : m.cb.rest with
      | nil =>
        exact ⟨m, [], [], by simp [coScan, ra, rb], ha, hb, ho, .inr rb, by simp [ra, rb], rfl, rfl, rfl, by simp⟩
      | cons wb wsB =>
        obtain ⟨h1, h2, h3, h4, h5, h6⟩ := stepWord_spec op ha hb ra rb
        obtain ⟨a1, a2, a3, a4⟩ := takeUnits_spec ha ra h1 h2
        obtain ⟨b1, b2, b3, b4⟩ := takeUnits_spec hb rb h1 h3
        rw [ra, rb] at hf hl
        simp only [List.length_cons] at hf hl
        obtain ⟨out, ho'⟩ := emit_isSome op (stepWord op wa wb m.ca.rem m.cb.rem).1 (out := m.out) (limit := limit)
          (by omega)
        have hol := emit_length ho'
        have hA : (takeUnits m.ca (stepWord op wa wb m.ca.rem m.cb.rem).2).rest.length ≤ wsA.length + 1
            ∧ ((stepWord op wa wb m.ca.rem m.cb.rem).2 = m.ca.rem →
              (takeUnits m.ca (stepWord op wa wb m.ca.rem m.cb.rem).2).rest.length = wsA.length) := by
          rcases Nat.lt_or_eq_of_le h2 with h | h
          · rw [a4 h]; exact ⟨by simp, fun e => by omega⟩
          · rw [a3 h]; exact ⟨by simp, fun _ => rfl⟩
        have hB : (takeUnits m.cb (stepWord op wa wb m.ca.rem m.cb.rem).2).rest.length ≤ wsB.length + 1
            ∧ ((stepWord op wa wb m.ca.rem m.cb.rem).2 = m.cb.rem →
              (takeUnits m.cb (stepWord op wa wb m.ca.rem m.cb.rem).2).rest.length = wsB.length) := by
          rcases Nat.lt_or_eq_of_le h3 with h | h
          · rw [b4 h]; exact ⟨by simp, fun e => by omega⟩
          · rw [b3 h]; exact ⟨by simp, fun _ => rfl⟩
        have hdec : (takeUnits m.ca (stepWord op wa wb m.ca.rem m.cb.rem).2).rest.length
            + (takeUnits m.cb (stepWord op wa wb m.ca.rem m.cb.rem).2).rest.length + 1
              ≤ wsA.length + 1 + (wsB.length + 1) := by
          rcases h4 with h | h
          · have := hA.2 h; omega
          · have := hB.2 h; omega
        obtain ⟨m', xs, ys, e1, e2, e3, e4, e5, e6, e7, e8, e9, e10⟩ :=
          ih { ca := takeUnits m.ca (stepWord op wa wb m.ca.rem m.cb.rem).2,
               cb := takeUnits m.cb (stepWord op wa wb m.ca.rem m.cb.rem).2, out := out }
            a1 b1 (emit_wordsOk ho' h5 ho) (by simp only; omega) (by simp only; omega)
        refine ⟨m', List.replicate (stepWord op wa wb m.ca.rem m.cb.rem).2 (unitOfWord wa) ++ xs,
          List.replicate (stepWord op wa wb m.ca.rem m.cb.rem).2 (unitOfWord wb) ++ ys,
          ?_, e2, e3, e4, e5, ?_, ?_, ?_, ?_, ?_⟩
        · simp only [coScan, ra, rb, ho', Option.bind_some]
          exact e1
        · simp only [List.length_cons]
          simp only at e6
          omega
        · simp [e7]
        · rw [a2, e8, List.append_assoc]
        · rw [b2, e9, List.append_assoc]
        · rw [e10, emit_units ho', h6, List.zipWith_append (by simp), List.zipWith_replicate]
          simp

/-! ### The tail and the trim -/

theorem emitAll_spec (op : MergeOp) {limit : Nat} (ws out : List (Word wd)) (hw : WordsOk ws) (ho : WordsOk out)
    (hl : out.length + ws.length + 1 ≤ limit) :
    ∃ out', emitAll op limit ws out = some out' ∧ WordsOk out' ∧ out'.length ≤ out.length + ws.length
      ∧ units out'.reverse = units out.reverse ++ units ws := by
  induction ws generalizing out with
  | nil => exact ⟨out, rfl, ho, Nat.le_refl _, by simp⟩
  | cons w ws ih =>
    simp only [List.length_cons] at hl
    obtain ⟨o1, h1⟩ := emit_isSome op (limit := limit) w (out := out) (by omega)
    have hlen := emit_length h1
    have hw' := WordsOk.cons.1 hw
    obtain ⟨o2, h2, h3, h4, h5⟩ := ih o1 hw'.2 (emit_wordsOk h1 hw'.1 ho) (by omega)
    refine ⟨o2, by rw [emitAll, h1]; exact h2, h3, by simp only [List.length_cons]; omega, ?_⟩
    rw [h5, emit_units h1, units_cons, List.append_assoc]

theorem restWords_spec {c : Cursor wd} (hc : CursorOk c) :
    WordsOk (restWords c) ∧ (restWords c).length = c.rest.length ∧ units (restWords c) = restUnits c := by
  rw [restWords, restUnits]
  cases hr : c.rest with
  | nil => exact ⟨.nil, rfl, rfl⟩
  | cons w ws =>
    have hws := hc.1
    rw [hr] at hws
    have hrem := hc.2 w (by rw [hr]; rfl)
    have hl := runLen_le w
    refine ⟨WordsOk.cons.2 ⟨?_, (WordsOk.cons.1 hws).2⟩, by simp, ?_⟩
    · split
      · rename_i h
        simp only [span, h, if_true] at hrem
        exact isEmptyRun_mkRun hrem.1 (by omega)
      · exact isEmptyRun_literal (by simpa using ‹¬isRun w = true›)
    · simp only [units_cons]
      congr 1
      split
      · rename_i h
        simp only [span, h, if_true] at hrem
        rw [wordUnits_mkRun (by omega), unitOfWord_run h]
      · rename_i h
        have h' : isRun w = false := by simpa using h
        simp only [span, h'] at hrem
        simp at hrem
        rw [wordUnits_literal h', unitOfWord_literal h', show c.rem = 1 by omega]
        rfl

theorem unitBit_zeros (n j k : Nat) : unitBit (List.replicate n (0 : Word wd)) j k = false := by
  rw [unitBit, List.getElem?_replicate]
  split
  · rename_i h
    split at h
    · cases h; simp
    · cases h
  · rfl

/-- The trim drops zeros only (R183). -/
theorem trim_spec {ws : List (Word wd)} (h : WordsOk ws) :
    WordsOk (trim ws) ∧ (trim ws).length ≤ ws.length
      ∧ ∀ j k, unitBit (units (trim ws)) j k = unitBit (units ws) j k := by
  rcases ws with _ | ⟨w, _ | ⟨v, ws⟩⟩
  · exact ⟨h, Nat.le_refl _, fun _ _ => rfl⟩
  · rw [trim]
    split
    · rename_i hc
      simp at hc
      refine ⟨.nil, by simp, fun j k => ?_⟩
      simp only [units_cons, units_nil, List.append_nil]
      rw [wordUnits_run hc.1, hc.2]
      have e : fillWord wd false = 0 := rfl
      rw [e, unitBit_zeros]
      simp [unitBit]
    · exact ⟨h, Nat.le_refl _, fun _ _ => rfl⟩
  · exact ⟨h, Nat.le_refl _, fun _ _ => rfl⟩

/-! ### The merge -/

theorem unitBit_append (xs ys : List (Word wd)) (j k : Nat) :
    unitBit (xs ++ ys) j k = if j < xs.length then unitBit xs j k else unitBit ys (j - xs.length) k := by
  by_cases h : j < xs.length
  · rw [if_pos h, unitBit, unitBit, List.getElem?_append_left h]
  · rw [if_neg h, unitBit, unitBit, List.getElem?_append_right (by omega)]

theorem unitBit_zipWith (op : MergeOp) {xs ys : List (Word wd)} (h : xs.length = ys.length) {j : Nat}
    (hj : j < xs.length) (k : Nat) :
    unitBit (List.zipWith op.lit xs ys) j k = op.bit (unitBit xs j k) (unitBit ys j k) := by
  unfold unitBit
  rw [List.getElem?_zipWith, List.getElem?_eq_getElem hj, List.getElem?_eq_getElem (by omega)]
  exact op.getLsbD_lit _ _ k

/-- A merge of well-formed words never raises BOUND, and its output is well-formed, at most as long as both operands
together, and combines their unit streams bit by bit (R189, R190). -/
theorem mergeWords_spec (op : MergeOp) {wsA wsB : List (Word wd)} (ha : WordsOk wsA) (hb : WordsOk wsB) :
    ∃ out, mergeWords op wsA wsB = some out ∧ WordsOk out ∧ out.length ≤ wsA.length + wsB.length
      ∧ ∀ j k, unitBit (units out) j k = op.bit (unitBit (units wsA) j k) (unitBit (units wsB) j k) := by
  obtain ⟨m, xs, ys, e1, e2, e3, e4, e5, e6, e7, e8, e9, e10⟩ :=
    coScan_spec op (limit := (1 + wsA.length) + (1 + wsB.length)) (wsA.length + wsB.length)
      { ca := cursorAt wsA, cb := cursorAt wsB, out := [] } (.cursorAt ha) (.cursorAt hb) .nil
      (by simp [cursorAt_rest]) (by simp [cursorAt_rest]; omega)
  simp only [cursorAt_rest, restUnits_cursorAt, List.length_nil, List.reverse_nil, units_nil, List.nil_append]
    at e6 e8 e9 e10
  obtain ⟨ra1, ra2, ra3⟩ := restWords_spec e2
  obtain ⟨rb1, rb2, rb3⟩ := restWords_spec e3
  have ht : WordsOk (tailWords op m) ∧ (tailWords op m).length ≤ m.ca.rest.length + m.cb.rest.length := by
    cases op
    · exact ⟨WordsOk.append.2 ⟨ra1, rb1⟩, by simp [tailWords, ra2, rb2]⟩
    · exact ⟨.nil, by simp [tailWords]⟩
  obtain ⟨out, t1, t2, t3, t4⟩ := emitAll_spec op (limit := (1 + wsA.length) + (1 + wsB.length)) (tailWords op m)
    m.out ht.1 e4 (by omega)
  have hrev : WordsOk out.reverse := fun w hw => t2 w (List.mem_reverse.1 hw)
  obtain ⟨s1, s2, s3⟩ := trim_spec hrev
  refine ⟨trim out.reverse, ?_, s1, by rw [List.length_reverse] at s2; omega, fun j k => ?_⟩
  · simp only [mergeWords, e1, Option.bind_some, t1, Option.map_some]
  · have hz : (List.zipWith op.lit xs ys).length = xs.length := by simp [e7]
    have hnone : ∀ (i : Nat), unitBit ([] : List (Word wd)) i k = false := fun i => by simp [unitBit]
    rw [s3, t4, e10, e8, e9, unitBit_append, unitBit_append, unitBit_append, hz, ← e7]
    split
    · rename_i hj
      exact unitBit_zipWith op e7 hj k
    · cases op
      · show unitBit (units (restWords m.ca ++ restWords m.cb)) _ _ = _
        rw [units_append, ra3, rb3]
        rcases e5 with h | h
        · have : restUnits m.ca = [] := by rw [restUnits, h]
          rw [this, hnone]; simp [MergeOp.bit, MergeOp.fill]
        · have : restUnits m.cb = [] := by rw [restUnits, h]
          rw [this, hnone]; simp [MergeOp.bit, MergeOp.fill]
      · show unitBit (units []) _ _ = _
        rw [units_nil, hnone]
        rcases e5 with h | h
        · have : restUnits m.ca = [] := by rw [restUnits, h]
          rw [this, hnone]; simp [MergeOp.bit, MergeOp.fill]
        · have : restUnits m.cb = [] := by rw [restUnits, h]
          rw [this, hnone]; simp [MergeOp.bit, MergeOp.fill]

/-- The position sets of a merge (R170, R189). -/
theorem Pos_mergeWords (op : MergeOp) {wsA wsB out : List (Word wd)} (ha : WordsOk wsA) (hb : WordsOk wsB)
    (h : mergeWords op wsA wsB = some out) :
    Pos out = match op with
      | .or => Pos wsA ∪ Pos wsB
      | .and => Pos wsA ∩ Pos wsB := by
  obtain ⟨out', h1, _, _, h4⟩ := mergeWords_spec op ha hb
  cases h.symm.trans h1
  cases op
  · ext p
    simp only [Set.mem_union, mem_Pos, h4, MergeOp.bit, MergeOp.fill, Bool.or_eq_true]
    tauto
  · ext p
    simp only [Set.mem_inter_iff, mem_Pos, h4, MergeOp.bit, MergeOp.fill, Bool.and_eq_true]
    tauto

end Sys2Proof.Machine
end

