-- ==== Sys2Proof/Laws/CoScan.lean ====
section
/-! SUPPORT. The merge engine against the rules of Machine/CoScan.lean: its cursors follow the inference rules, its
Emit is the fold, its trim is R183's. -/

namespace Sys2Proof.Machine

variable {wd : Width}

/-! ### Emit and trim -/

theorem normalize_eq (op : MergeOp) (w : Word wd) : normalize op w = normalWord op w := by
  unfold normalize normalWord
  split
  · rename_i h
    have h1 : w ≠ allOnes wd := by rintro rfl; rw [isRun_allOnes] at h; cases h
    have h0 : w ≠ 0 := by rintro rfl; rw [isRun_zero] at h; cases h
    cases op
    · exact (if_neg h1).symm
    · exact (if_neg h0).symm
  · rfl

/-- Emit without BOUND appends at the other end what `fuseOn` does (R175). -/
theorem emit_reverse {op : MergeOp} {limit : Nat} {w : Word wd} {out out' : List (Word wd)}
    (h : emit op limit w out = some out') : out'.reverse = fuseOn out.reverse (normalWord op w) := by
  rw [← normalize_eq]
  unfold emit at h
  have hnew : ∀ {v : Word wd}, emitNew limit v out = some out' → out' = v :: out := by
    intro v e
    rw [emitNew] at e
    split at e <;> cases e
    rfl
  rw [fuseOn]
  cases out with
  | nil => rw [hnew h]; rfl
  | cons last older =>
    rw [List.getLast?_reverse]
    simp only [List.head?_cons] at h ⊢
    split at h
    · rename_i hc
      rw [if_pos hc]
      cases h
      simp
    · rename_i hc
      rw [if_neg hc, hnew h]
      simp

theorem emitAll_reverse {op : MergeOp} {limit : Nat} {zs out out' : List (Word wd)}
    (h : emitAll op limit zs out = some out') :
    out'.reverse = zs.foldl (fun o w => fuseOn o (normalWord op w)) out.reverse := by
  induction zs generalizing out with
  | nil => cases h; rfl
  | cons z zs ih =>
    obtain ⟨o, h1, h2⟩ := Option.bind_eq_some_iff.1 h
    rw [ih h2, emit_reverse h1]
    rfl

theorem trim_eq (ws : List (Word wd)) : trim ws = withoutLoneZeros ws := by
  rcases ws with _ | ⟨w, _ | ⟨v, ws⟩⟩
  · rfl
  · simp [trim, withoutLoneZeros]
  · simp [trim, withoutLoneZeros]

/-! ### The cursors -/

/-- The first word a cursor stands for: its run's units not yet consumed, or its literal. -/
theorem restWords_cons {c : Cursor wd} {w : Word wd} {ws : List (Word wd)} (hr : c.rest = w :: ws) :
    restWords c = (if isRun w then mkRun (runOnes w) c.rem else w) :: ws := by rw [restWords, hr]

theorem restWords_cursorAt (ws : List (Word wd)) : restWords (cursorAt ws) = ws := by
  cases ws with
  | nil => rfl
  | cons w ws =>
    rw [restWords_cons (c := cursorAt (w :: ws)) rfl]
    by_cases h : isRun w = true
    · rw [if_pos h]
      show mkRun (runOnes w) (span w) :: ws = w :: ws
      rw [span, if_pos h, mkRun_fields h]
    · rw [if_neg h]

/-- `Take` on a run is `lessUnits` (R171). -/
theorem restWords_takeUnits {c : Cursor wd} {w : Word wd} {ws : List (Word wd)} {n : Nat} (hc : CursorOk c)
    (hr : c.rest = w :: ws) (hw : isRun w = true) (hn : n ≤ c.rem) :
    restWords (takeUnits c n) = lessUnits n (mkRun (runOnes w) c.rem) ws := by
  have hrem := (hc.2 w (by rw [hr]; rfl)).2
  rw [span, if_pos hw] at hrem
  have hm : c.rem ≤ maxRun wd := Nat.le_trans hrem (runLen_le w)
  rw [lessUnits, runLen_mkRun hm, runOnes_mkRun hm, takeUnits]
  by_cases e : c.rem = n
  · rw [if_pos (by omega), if_pos e, hr]
    exact restWords_cursorAt ws
  · rw [if_neg (by omega), if_neg e, restWords_cons (c := { c with rem := c.rem - n }) hr, if_pos hw]

/-- `Take` of a literal passes it (R171). -/
theorem restWords_takeLiteral {c : Cursor wd} {w : Word wd} {ws : List (Word wd)} (hc : CursorOk c)
    (hr : c.rest = w :: ws) (hw : isRun w = false) : restWords (takeUnits c 1) = ws := by
  have hrem := hc.2 w (by rw [hr]; rfl)
  rw [span, hw] at hrem
  rw [takeUnits, if_pos (by simp at hrem; omega), hr]
  exact restWords_cursorAt ws

theorem tailWords_firstDone {op : MergeOp} {m : MergeWork wd} (h : m.ca.rest = []) :
    tailWords op m = leftOver op (restWords m.cb) := by
  have e : restWords m.ca = [] := by rw [restWords, h]
  cases op
  · simp [tailWords, leftOver, e]
  · rfl

theorem tailWords_secondDone {op : MergeOp} {m : MergeWork wd} (h : m.cb.rest = []) :
    tailWords op m = leftOver op (restWords m.ca) := by
  have e : restWords m.cb = [] := by rw [restWords, h]
  cases op
  · simp [tailWords, leftOver, e]
  · rfl

/-- One co-scan step is one rule: what it emits, and what is left of both operands (R178 to R180). -/
theorem CoScan.of_step {op : MergeOp} {m : MergeWork wd} {wa wb : Word wd} {wsA wsB zs : List (Word wd)}
    (ha : CursorOk m.ca) (hb : CursorOk m.cb) (ra : m.ca.rest = wa :: wsA) (rb : m.cb.rest = wb :: wsB)
    (h : CoScan op (restWords (takeUnits m.ca (stepWord op wa wb m.ca.rem m.cb.rem).2))
      (restWords (takeUnits m.cb (stepWord op wa wb m.ca.rem m.cb.rem).2)) zs) :
    CoScan op (restWords m.ca) (restWords m.cb) ((stepWord op wa wb m.ca.rem m.cb.rem).1 :: zs) := by
  have hA := ha.2 wa (by rw [ra]; rfl)
  have hB := hb.2 wb (by rw [rb]; rfl)
  rw [restWords_cons ra, restWords_cons rb]
  cases ea : isRun wa <;> cases eb : isRun wb
  · have e : stepWord op wa wb m.ca.rem m.cb.rem = (op.lit wa wb, 1) := by simp [stepWord, ea, eb]
    rw [e] at h ⊢
    rw [restWords_takeLiteral ha ra ea, restWords_takeLiteral hb rb eb] at h
    exact .literals ea eb h
  · have hm : m.cb.rem ≤ maxRun wd := by
      rw [span, if_pos eb] at hB; exact Nat.le_trans hB.2 (runLen_le wb)
    have e : stepWord op wa wb m.ca.rem m.cb.rem = (op.lit wa (fillWord wd (runOnes wb)), 1) := by
      simp [stepWord, ea, eb]
    rw [e] at h ⊢
    rw [restWords_takeLiteral ha ra ea, restWords_takeUnits hb rb eb hB.1] at h
    have := CoScan.literalRun ea (isRun_mkRun hm) h
    rwa [runOnes_mkRun hm] at this
  · have hm : m.ca.rem ≤ maxRun wd := by
      rw [span, if_pos ea] at hA; exact Nat.le_trans hA.2 (runLen_le wa)
    have e : stepWord op wa wb m.ca.rem m.cb.rem = (op.lit wb (fillWord wd (runOnes wa)), 1) := by
      simp [stepWord, ea, eb]
    rw [e] at h ⊢
    rw [restWords_takeUnits ha ra ea hA.1, restWords_takeLiteral hb rb eb] at h
    have := CoScan.runLiteral (isRun_mkRun hm) eb h
    rwa [runOnes_mkRun hm] at this
  · have hma : m.ca.rem ≤ maxRun wd := by
      rw [span, if_pos ea] at hA; exact Nat.le_trans hA.2 (runLen_le wa)
    have hmb : m.cb.rem ≤ maxRun wd := by
      rw [span, if_pos eb] at hB; exact Nat.le_trans hB.2 (runLen_le wb)
    have e : stepWord op wa wb m.ca.rem m.cb.rem
        = (mkRun (op.fill (runOnes wa) (runOnes wb)) (min m.ca.rem m.cb.rem), min m.ca.rem m.cb.rem) := by
      simp [stepWord, ea, eb]
    rw [e] at h ⊢
    rw [restWords_takeUnits ha ra ea (Nat.min_le_left _ _), restWords_takeUnits hb rb eb (Nat.min_le_right _ _)] at h
    have := CoScan.runs (op := op) (v := mkRun (runOnes wa) m.ca.rem) (w := mkRun (runOnes wb) m.cb.rem) (vs := wsA)
      (ws := wsB) (zs := zs) (isRun_mkRun hma) (isRun_mkRun hmb)
    rw [runLen_mkRun hma, runLen_mkRun hmb, runOnes_mkRun hma, runOnes_mkRun hmb] at this
    exact this h

/-- The engine's co-scan and tail pass to Emit the words the rules give (R178 to R182). -/
theorem coScan_emits (op : MergeOp) {limit : Nat} (fuel : Nat) (m m' : MergeWork wd) (ha : CursorOk m.ca)
    (hb : CursorOk m.cb) (h : coScan op limit fuel m = some m') (hd : m'.ca.rest = [] ∨ m'.cb.rest = []) :
    ∃ zs, CoScan op (restWords m.ca) (restWords m.cb) zs
      ∧ emitAll op limit zs m.out = emitAll op limit (tailWords op m') m'.out := by
  have hdone : (m'.ca.rest = [] ∨ m'.cb.rest = []) →
      ∃ zs, CoScan op (restWords m'.ca) (restWords m'.cb) zs
        ∧ emitAll op limit zs m'.out = emitAll op limit (tailWords op m') m'.out := by
    rintro (e | e)
    · refine ⟨_, ?_, by rw [tailWords_firstDone e]⟩
      rw [show restWords m'.ca = [] by rw [restWords, e]]
      exact .firstDone _
    · refine ⟨_, ?_, by rw [tailWords_secondDone e]⟩
      rw [show restWords m'.cb = [] by rw [restWords, e]]
      exact .secondDone _
  induction fuel generalizing m with
  | zero => cases h; exact hdone hd
  | succ fuel ih =>
    cases ra : m.ca.rest with
    | nil =>
      simp only [coScan, ra] at h
      cases h
      exact hdone hd
    | cons wa wsA =>
      cases rb : m.cb.rest with
      | nil =>
        simp only [coScan, ra, rb] at h
        cases h
        exact hdone hd
      | cons wb wsB =>
        simp only [coScan, ra, rb] at h
        obtain ⟨o, h1, h2⟩ := Option.bind_eq_some_iff.1 h
        obtain ⟨n1, n2, n3, _⟩ := stepWord_spec op ha hb ra rb
        obtain ⟨zs, h3, h4⟩ := ih _ (takeUnits_spec ha ra n1 n2).1 (takeUnits_spec hb rb n1 n3).1 h2
        refine ⟨_, .of_step ha hb ra rb h3, ?_⟩
        rw [emitAll, h1]
        exact h4

/-- What a merge of well-formed words leaves (R173 to R183). -/
theorem mergeWords_coScan (op : MergeOp) {wsA wsB : List (Word wd)} (ha : WordsOk wsA) (hb : WordsOk wsB) :
    ∃ zs, CoScan op wsA wsB zs ∧ mergeWords op wsA wsB = some (withoutLoneZeros (emitted op zs)) := by
  obtain ⟨out, h, _⟩ := mergeWords_spec op ha hb
  obtain ⟨m', _, _, e1, _, _, _, e5, _⟩ :=
    coScan_spec op (limit := (1 + wsA.length) + (1 + wsB.length)) (wsA.length + wsB.length)
      { ca := cursorAt wsA, cb := cursorAt wsB, out := [] } (.cursorAt ha) (.cursorAt hb) .nil
      (by simp [cursorAt_rest]) (by simp [cursorAt_rest]; omega)
  obtain ⟨zs, h1, h2⟩ := coScan_emits op _ _ m' (.cursorAt ha) (.cursorAt hb) e1 e5
  simp only [restWords_cursorAt] at h1
  refine ⟨zs, h1, ?_⟩
  rw [mergeWords] at h ⊢
  rw [e1, Option.bind_some, ← h2] at h ⊢
  obtain ⟨o, h3, _⟩ := Option.map_eq_some_iff.1 h
  rw [h3, Option.map_some, trim_eq, emitAll_reverse h3]
  rfl

/-- One rule at most applies to two operands, so they fix the emitted words. -/
theorem CoScan.unique {op : MergeOp} {xs ys zs zs' : List (Word wd)} (h : CoScan op xs ys zs)
    (h' : CoScan op xs ys zs') : zs = zs' := by
  induction h generalizing zs' with
  | literals hx hy _ ih =>
    cases h' with
    | literals _ _ h => rw [ih h]
    | runs hv _ _ => rw [hx] at hv; cases hv
    | literalRun _ hw _ => rw [hy] at hw; cases hw
    | runLiteral hv _ _ => rw [hx] at hv; cases hv
  | runs hv hw _ ih =>
    cases h' with
    | literals hx _ _ => rw [hv] at hx; cases hx
    | runs _ _ h => rw [ih h]
    | literalRun hx _ _ => rw [hv] at hx; cases hx
    | runLiteral _ hy _ => rw [hw] at hy; cases hy
  | literalRun hx hw _ ih =>
    cases h' with
    | literals _ hy _ => rw [hw] at hy; cases hy
    | runs hv _ _ => rw [hx] at hv; cases hv
    | literalRun _ _ h => rw [ih h]
    | runLiteral hv _ _ => rw [hx] at hv; cases hv
  | runLiteral hv hy _ ih =>
    cases h' with
    | literals hx _ _ => rw [hv] at hx; cases hx
    | runs _ hw _ => rw [hy] at hw; cases hw
    | literalRun hx _ _ => rw [hv] at hx; cases hx
    | runLiteral _ _ h => rw [ih h]
  | firstDone ys =>
    cases h' with
    | firstDone => rfl
    | secondDone => rfl
  | secondDone xs =>
    cases h' with
    | firstDone => rfl
    | secondDone => rfl

end Sys2Proof.Machine
end

