-- ==== Sys2Proof/Laws/Memory.lean ====
section
/-! SUPPORT. Buffers: reading after a write and after a store, and the canonical form every operation keeps. -/

namespace Sys2Proof.Machine

variable {wd : Width}

theorem Memory.find_put (i j : Nat) (v : Word wd) (m : Memory wd) :
    Memory.find j (Memory.put i v m) = if j = i then some v else Memory.find j m := by
  induction m with
  | nil => simp [Memory.put, Memory.find]
  | cons e m ih =>
    obtain ⟨k, u⟩ := e
    simp only [Memory.put]
    split
    · simp only [Memory.find]
    · split
      · subst_vars
        simp only [Memory.find]
        split <;> rfl
      · simp only [Memory.find, ih]
        split <;> split <;> first | rfl | omega

theorem Memory.find_number (st i : Nat) (ws : List (Word wd)) :
    Memory.find i (Memory.number st ws) = if st ≤ i then ws[i - st]? else none := by
  induction ws generalizing st with
  | nil => simp [Memory.number, Memory.find]
  | cons w ws ih =>
    simp only [Memory.number, Memory.find, ih]
    rcases Nat.lt_trichotomy i st with h | h | h
    · rw [if_neg (by omega), if_neg (by omega), if_neg (by omega)]
    · subst h; simp
    · rw [if_neg (by omega), if_pos (by omega), if_pos (by omega), show i - st = (i - (st + 1)) + 1 by omega]
      rfl

theorem Memory.keys_put (i : Nat) (v : Word wd) (m : Memory wd) {k : Nat}
    (h : k ∈ (Memory.put i v m).map Prod.fst) : k = i ∨ k ∈ m.map Prod.fst := by
  induction m with
  | nil => simpa [Memory.put] using h
  | cons e m ih =>
    obtain ⟨j, u⟩ := e
    simp only [Memory.put] at h
    split at h
    · simpa using h
    · split at h
      · simp at h ⊢; tauto
      · rw [List.map_cons, List.mem_cons] at h
        rcases h with h | h
        · simp [h]
        · rcases ih h with h | h
          · exact .inl h
          · exact .inr (List.mem_cons_of_mem _ h)

theorem Memory.put_wf (i : Nat) (v : Word wd) {m : Memory wd} (h : Memory.wf m) :
    Memory.wf (Memory.put i v m) := by
  induction m with
  | nil => simp [Memory.put, Memory.wf]
  | cons e m ih =>
    obtain ⟨j, u⟩ := e
    simp only [Memory.wf, List.map_cons, List.pairwise_cons] at h ih ⊢
    simp only [Memory.put]
    split
    · simp only [List.map_cons, List.pairwise_cons]
      refine ⟨fun k hk => ?_, h.1, h.2⟩
      rcases List.mem_cons.1 hk with rfl | hk
      · assumption
      · have := h.1 k hk; omega
    · split
      · subst_vars
        exact List.pairwise_cons.2 h
      · simp only [List.map_cons, List.pairwise_cons]
        refine ⟨fun k hk => ?_, ih h.2⟩
        rcases Memory.keys_put i v m hk with rfl | hk
        · omega
        · exact h.1 k hk

theorem Memory.keys_number (st : Nat) (ws : List (Word wd)) {k : Nat}
    (h : k ∈ (Memory.number st ws).map Prod.fst) : st ≤ k ∧ k < st + ws.length := by
  induction ws generalizing st with
  | nil => simp [Memory.number] at h
  | cons w ws ih =>
    rw [Memory.number, List.map_cons, List.mem_cons] at h
    rcases h with rfl | h
    · simp
    · have := ih _ h
      simp only [List.length_cons]; omega

theorem Memory.number_wf (st : Nat) (ws : List (Word wd)) : Memory.wf (Memory.number st ws) := by
  induction ws generalizing st with
  | nil => simp [Memory.number, Memory.wf]
  | cons w ws ih =>
    simp only [Memory.wf, Memory.number, List.map_cons, List.pairwise_cons]
    exact ⟨fun k hk => (Memory.keys_number _ _ hk).1, ih _⟩

/-! ### Buffers -/

theorem Buffer.read_write (b : Buf) (x : Buffer wd) (i j : Nat) (v : Word wd) :
    (x.write i v).read b j = if j = i then v else x.read b j := by
  simp only [Buffer.read, Buffer.write, Memory.find_put]
  by_cases h : j = i <;> simp [h]

theorem Buffer.write_wf (x : Buffer wd) (i : Nat) (v : Word wd) (h : Memory.wf x.mem) :
    Memory.wf (x.write i v).mem := Memory.put_wf i v h

theorem Buffer.store_wf (x : Buffer wd) (ws : List (Word wd)) : Memory.wf (x.store ws).mem := by
  simp only [Memory.wf, Buffer.store, List.map_cons, List.pairwise_cons]
  exact ⟨fun k hk => (Memory.keys_number _ _ hk).1, Memory.number_wf _ _⟩

theorem Buffer.keys_store (x : Buffer wd) (ws : List (Word wd)) {k : Nat}
    (h : k ∈ (x.store ws).mem.map Prod.fst) : k < 1 + ws.length := by
  rw [Buffer.store, List.map_cons, List.mem_cons] at h
  rcases h with rfl | h
  · omega
  · exact (Memory.keys_number _ _ h).2

theorem Buffer.read_store_zero (b : Buf) (x : Buffer wd) (ws : List (Word wd)) :
    (x.store ws).read b 0 = BitVec.ofNat wd.bits (1 + ws.length) := by
  simp [Buffer.read, Buffer.store, Memory.find]

theorem Buffer.read_store_succ (b : Buf) (x : Buffer wd) (ws : List (Word wd)) {j : Nat} (h : j < ws.length) :
    (x.store ws).read b (j + 1) = ws[j] := by
  simp [Buffer.read, Buffer.store, Memory.find, Memory.find_number, List.getElem?_eq_getElem h]

theorem Buffer.len_store (b : Buf) (x : Buffer wd) (ws : List (Word wd)) (h : 1 + ws.length < 2 ^ wd.bits) :
    (x.store ws).len b = 1 + ws.length := by
  rw [Buffer.len, Buffer.read_store_zero, BitVec.toNat_ofNat, Nat.mod_eq_of_lt h]

theorem Buffer.words_store (b : Buf) (x : Buffer wd) (ws : List (Word wd)) (h : 1 + ws.length < 2 ^ wd.bits) :
    (x.store ws).words b = ws := by
  rw [Buffer.words, Buffer.len_store b x ws h]
  apply List.ext_getElem
  · simp
  · intro i h1 h2
    simp only [List.getElem_map, List.getElem_range]
    exact Buffer.read_store_succ b x ws h2

theorem Buffer.length_words (b : Buf) (x : Buffer wd) : (x.words b).length = x.len b - 1 := by
  simp [Buffer.words]

theorem Buffer.len_lt (b : Buf) (x : Buffer wd) : x.len b < 2 ^ wd.bits := BitVec.isLt _

end Sys2Proof.Machine
end

