-- ==== Sys2Proof/Laws/State.lean ====
section
/-! SUPPORT. What each named update of the state leaves and changes, field by field, and what the end of a command
can be. -/

namespace Sys2Proof.Machine

section
variable (s : State)

@[simp] theorem State.buf_A : s.buf .A = s.bufA := rfl
@[simp] theorem State.buf_B : s.buf .B = s.bufB := rfl
@[simp] theorem State.buf_R : s.buf .R = s.bufR := rfl
@[simp] theorem State.depth_A : s.depth .A = s.params.depth := rfl
@[simp] theorem State.depth_B : s.depth .B = s.params.depth := rfl
@[simp] theorem State.depth_R : s.depth .R = 2 * s.params.depth := rfl

@[simp] theorem State.setResult_params (v) : (s.setResult v).params = s.params := rfl
@[simp] theorem State.setResult_arg (v) : (s.setResult v).arg = s.arg := rfl
@[simp] theorem State.setResult_result (v) : (s.setResult v).result = v := rfl
@[simp] theorem State.setResult_status (v) : (s.setResult v).status = s.status := rfl
@[simp] theorem State.setResult_buf (v) (b : Buf) : (s.setResult v).buf b = s.buf b := by cases b <;> rfl
@[simp] theorem State.setResult_faultLog (v) : (s.setResult v).faultLog = s.faultLog := rfl

@[simp] theorem State.setBuf_params (b : Buf) (x) : (s.setBuf b x).params = s.params := rfl
@[simp] theorem State.setBuf_arg (b : Buf) (x) : (s.setBuf b x).arg = s.arg := rfl
@[simp] theorem State.setBuf_result (b : Buf) (x) : (s.setBuf b x).result = s.result := rfl
@[simp] theorem State.setBuf_status (b : Buf) (x) : (s.setBuf b x).status = s.status := rfl
@[simp] theorem State.setBuf_faultLog (b : Buf) (x) : (s.setBuf b x).faultLog = s.faultLog := rfl
@[simp] theorem State.setBuf_buf_same (b : Buf) (x) : (s.setBuf b x).buf b = x := by cases b <;> rfl
theorem State.setBuf_buf_other {b c : Buf} (h : c ≠ b) (x) : (s.setBuf b x).buf c = s.buf c := by
  cases b <;> cases c <;> first | rfl | exact absurd rfl h
theorem State.setBuf_A (x) : s.setBuf .A x = { s with bufA := x } := rfl
theorem State.setBuf_B (x) : s.setBuf .B x = { s with bufB := x } := rfl
theorem State.setBuf_R (x) : s.setBuf .R x = { s with bufR := x } := rfl

@[simp] theorem State.complete_params (c) : (s.complete c).params = s.params := rfl
@[simp] theorem State.complete_arg (c) : (s.complete c).arg = s.arg := rfl
@[simp] theorem State.complete_result (c) : (s.complete c).result = s.result := rfl
@[simp] theorem State.complete_status (c) : (s.complete c).status = s.status.finish c := rfl
@[simp] theorem State.complete_buf (c) (b : Buf) : (s.complete c).buf b = s.buf b := by cases b <;> rfl
@[simp] theorem State.complete_host (c) : (s.complete c).host = s.host := rfl
@[simp] theorem State.complete_schedule (c) : (s.complete c).schedule = s.schedule := rfl
@[simp] theorem State.complete_trace (c) : (s.complete c).trace = s.trace := rfl
@[simp] theorem State.complete_faultLog_ok : (s.complete .ok).faultLog = s.faultLog := rfl

end

/-- What the end of a command can be: completion in the state its rule reached, or, where it raised a code, in the
state it started from. -/
theorem State.conclude_cases {s t : State} {r : Except Code State} (h : s.conclude r = .next t) :
    (∃ u, r = .ok u ∧ t = u.complete .ok) ∨ (∃ c, r = .error c ∧ t = s.complete c) := by
  cases r with
  | ok u => exact .inl ⟨u, rfl, by cases h; rfl⟩
  | error c => exact .inr ⟨c, rfl, by cases h; rfl⟩

end Sys2Proof.Machine
end

