-- ==== Sys2Proof/Laws/Commands.lean ====
section
/-! SUPPORT. The checks of the commands as propositions, how a command's end reads, and what storing a bitmap
leaves. -/

namespace Sys2Proof.Machine

open Sys2Proof.Config (Params)

variable {wd : Width}

theorem State.complete_ok (s : State) : s.complete .ok = s.afterOk := rfl

theorem State.complete_fault (s : State) {c : Code} (h : c ≠ .ok) : s.complete c = s.afterFault c := by
  simp [State.complete, State.afterFault, Status.finish, h]

theorem State.conclude_ok (s t : State) : s.conclude (.ok t) = .next t.afterOk := rfl

theorem State.conclude_error (s : State) {c : Code} (h : c ≠ .ok) :
    s.conclude (.error c) = .next (s.afterFault c) := congrArg _ (s.complete_fault h)

theorem State.lengthOk_iff (s : State) (b : Buf) : s.lengthOk b = true ↔ 1 ≤ s.len b ∧ s.len b ≤ s.depth b := by
  simp [State.lengthOk]

theorem State.runsOk_iff (s : State) (b : Buf) : s.runsOk b = true ↔ WordsOk (s.words b) := by
  simp [State.runsOk, WordsOk]

theorem State.wellFormed_iff (s : State) (b : Buf) :
    s.wellFormed b = true ↔ (1 ≤ s.len b ∧ s.len b ≤ s.depth b) ∧ WordsOk (s.words b) := by
  rw [State.wellFormed, Bool.and_eq_true, s.lengthOk_iff, s.runsOk_iff]

/-- Every length the block can store fits a word. -/
theorem State.depth_lt (s : State) (h : s.params.Ok) (b : Buf) : s.depth b < 2 ^ s.params.width.bits := by
  have h1 : 65536 < 2 ^ s.params.width.bits := by cases s.params.width <;> decide
  have h2 := h.2
  cases b <;> simp only [State.depth_A, State.depth_B, State.depth_R] <;> omega

theorem State.length_words (s : State) (b : Buf) : (s.words b).length = s.len b - 1 := Buffer.length_words b _

/-- `Store` with its RESULT, then completion without a fault. -/
theorem answers_storeBitmap (b : Buf) (s : State) (ws : List (Word s.params.width))
    (h : 1 + ws.length < 2 ^ s.params.width.bits) :
    AnswersBitmap b s ws (s.conclude (.ok (s.storeBitmap b ws))) :=
  ⟨(s.buf b).store ws, rfl, Buffer.len_store b _ ws h, Buffer.words_store b _ ws h⟩

theorem validPos_iff (s : State) :
    validPos s.params.width (position s.argLatch) = true ↔ ArgIsPosition s := by
  have h : ((maxPos s.params.width : Nat) : Int) = 2 ^ (s.params.width.bits - 2) - 1 := by
    cases s.params.width <;> rfl
  rw [validPos, ArgIsPosition, Bool.and_eq_true, decide_eq_true_eq, decide_eq_true_eq, h]; rfl

theorem argPos_bounds {s : State} (h : ArgIsPosition s) : 1 ≤ s.argPos ∧ s.argPos ≤ maxPos s.params.width := by
  have h2 : ((maxPos s.params.width : Nat) : Int) = 2 ^ (s.params.width.bits - 2) - 1 := by
    cases s.params.width <;> rfl
  obtain ⟨h0, h1⟩ := h
  rw [← h2] at h1
  rw [State.argPos]; omega

/-- INSERT once its checks have passed (R143). -/
theorem insertPosition_ok {b : Buf} {s : State} (hp : ArgIsPosition s) (hl : 1 ≤ s.len b ∧ s.len b ≤ s.depth b)
    (hw : WordsOk (s.words b)) :
    insertPosition b s = if s.depth b < 1 + (insertWords (s.words b) s.argPos).length then .error .capacity
      else .ok (s.storeBitmap b (insertWords (s.words b) s.argPos)) := by
  unfold insertPosition
  simp only [(validPos_iff s).2 hp, (s.lengthOk_iff b).2 hl, (s.runsOk_iff b).2 hw]
  rfl

/-- A merge once its checks have passed (R184): it never ends in BOUND. -/
theorem mergeBuffers_ok (op : MergeOp) {s : State} (ha : s.wellFormed .A = true) (hb : s.wellFormed .B = true) :
    ∃ ws, mergeWords op (s.words .A) (s.words .B) = some ws ∧ mergeBuffers op s = .ok (s.storeBitmap .R ws) := by
  obtain ⟨ws, h, _⟩ := mergeWords_spec op ((s.wellFormed_iff .A).1 ha).2 ((s.wellFormed_iff .B).1 hb).2
  rw [State.wellFormed, Bool.and_eq_true] at ha hb
  refine ⟨ws, h, ?_⟩
  unfold mergeBuffers
  simp [ha.1, ha.2, hb.1, hb.2, h]

/-- What an INSERT that ends without a fault has checked and done (R143). -/
theorem insertPosition_eq_ok {b : Buf} {s u : State} (h : insertPosition b s = .ok u) :
    ArgIsPosition s ∧ (1 ≤ s.len b ∧ s.len b ≤ s.depth b) ∧ WordsOk (s.words b)
      ∧ 1 + (insertWords (s.words b) s.argPos).length ≤ s.depth b
      ∧ u = s.storeBitmap b (insertWords (s.words b) s.argPos) := by
  simp only [insertPosition] at h
  split at h
  · cases h
  split at h
  · cases h
  split at h
  · cases h
  split at h
  · cases h
  rename_i h1 h2 h3 h4
  simp only [Bool.not_eq_true', Bool.not_eq_false] at h1 h2 h3
  cases h
  exact ⟨(validPos_iff s).1 h1, (s.lengthOk_iff b).1 h2, (s.runsOk_iff b).1 h3, Nat.le_of_not_lt h4, rfl⟩

/-- What a MOVE_R that ends without a fault has checked and done (R127). -/
theorem moveResult_eq_ok {d : Buf} {s u : State} (h : moveResult d s = .ok u) :
    s.wellFormed .R = true ∧ s.len .R ≤ s.params.depth ∧ u = s.storeBitmap d (s.words .R) := by
  simp only [moveResult] at h
  split at h
  · cases h
  split at h
  · cases h
  split at h
  · cases h
  rename_i h1 h2 h3
  simp only [Bool.not_eq_true', Bool.not_eq_false] at h1 h2
  cases h
  exact ⟨by rw [State.wellFormed, h1, h2]; rfl, Nat.le_of_not_lt h3, rfl⟩

/-- What a merge that ends without a fault has checked and done (R184). -/
theorem mergeBuffers_eq_ok {op : MergeOp} {s u : State} (h : mergeBuffers op s = .ok u) :
    s.wellFormed .A = true ∧ s.wellFormed .B = true
      ∧ ∃ ws, mergeWords op (s.words .A) (s.words .B) = some ws ∧ u = s.storeBitmap .R ws := by
  simp only [mergeBuffers] at h
  split at h
  · cases h
  split at h
  · cases h
  split at h
  · cases h
  split at h
  · cases h
  split at h
  · cases h
  rename_i h1 h2 h3 h4 _ ws hw
  simp only [Bool.not_eq_true', Bool.not_eq_false] at h1 h2 h3 h4
  cases h
  exact ⟨by rw [State.wellFormed, h1, h3]; rfl, by rw [State.wellFormed, h2, h4]; rfl, ws, hw, rfl⟩

/-- A classifier of positions that ends without a fault (R105, R106). -/
theorem classifyPosition_eq_ok {f : Nat → Nat} {s u : State} (h : classifyPosition f s = .ok u) :
    ArgIsPosition s ∧ u = s.setResult (BitVec.ofNat s.params.width.bits (f s.argPos)) := by
  simp only [classifyPosition] at h
  split at h
  · rename_i h1
    cases h
    exact ⟨(validPos_iff s).1 h1, rfl⟩
  · cases h

theorem writeSlot_eq_ok {b : Buf} {i : Nat} {s u : State} (h : writeSlot b i s = .ok u) :
    i < s.depth b ∧ u = s.setBuf b ((s.buf b).write i s.argLatch) := by
  rw [writeSlot] at h
  split at h
  · rename_i h1
    cases h
    exact ⟨h1, rfl⟩
  · cases h

theorem readSlot_eq_ok {b : Buf} {i : Nat} {s u : State} (h : readSlot b i s = .ok u) :
    i < s.depth b ∧ u = s.setResult ((s.buf b).read b i) := by
  rw [readSlot] at h
  split at h
  · rename_i h1
    cases h
    exact ⟨h1, rfl⟩
  · cases h

/-! No command raises the code OK: a fault is one of 1 to 7 (R200). -/

theorem insertPosition_ne_ok (b : Buf) (s : State) : insertPosition b s ≠ .error .ok := by
  intro h
  simp only [insertPosition] at h
  repeat' split at h
  all_goals cases h

theorem moveResult_ne_ok (d : Buf) (s : State) : moveResult d s ≠ .error .ok := by
  intro h
  simp only [moveResult] at h
  repeat' split at h
  all_goals cases h

theorem mergeBuffers_ne_ok (op : MergeOp) (s : State) : mergeBuffers op s ≠ .error .ok := by
  intro h
  simp only [mergeBuffers] at h
  repeat' split at h
  all_goals cases h

theorem classifyPosition_ne_ok (f : Nat → Nat) (s : State) : classifyPosition f s ≠ .error .ok := by
  intro h
  simp only [classifyPosition] at h
  split at h <;> cases h

theorem writeSlot_ne_ok (b : Buf) (i : Nat) (s : State) : writeSlot b i s ≠ .error .ok := by
  intro h
  rw [writeSlot] at h
  split at h <;> cases h

theorem readSlot_ne_ok (b : Buf) (i : Nat) (s : State) : readSlot b i s ≠ .error .ok := by
  intro h
  rw [readSlot] at h
  split at h <;> cases h

theorem SlotsOk.write {depth : Nat} {x : Buffer wd} (h : SlotsOk depth x) {i : Nat} (hi : i < depth) (v : Word wd) :
    SlotsOk depth (x.write i v) := by
  refine ⟨x.write_wf i v h.1, fun e he => ?_⟩
  rcases Memory.keys_put i v x.mem (List.mem_map_of_mem he) with h1 | h1
  · omega
  · obtain ⟨e', h2, h3⟩ := List.mem_map.1 h1
    rw [← h3]; exact h.2 e' h2

theorem SlotsOk.store {depth : Nat} (x : Buffer wd) {ws : List (Word wd)} (h : 1 + ws.length ≤ depth) :
    SlotsOk depth (x.store ws) :=
  ⟨x.store_wf ws, fun _ he => Nat.lt_of_lt_of_le (x.keys_store ws (List.mem_map_of_mem he)) h⟩

end Sys2Proof.Machine
end

