-- ==== Sys2Proof/Laws/MergeShape.lean ====
section
/-! SUPPORT. The words of a merge: the same for swapped operands, canonical for canonical operands up to the MAXRUN
limit, and those of the other operand where one is empty (R187, R192, R194). -/

namespace Sys2Proof.Machine

variable {wd : Width}

/-! ### Swapped operands -/

theorem stepWord_comm (op : MergeOp) (wa wb : Word wd) (ra rb : Nat) :
    stepWord op wa wb ra rb = stepWord op wb wa rb ra := by
  unfold stepWord
  rw [op.fill_comm (runOnes wa), Nat.min_comm ra, op.lit_comm wa wb]
  cases isRun wa <;> cases isRun wb <;> rfl

/-- The merge working state with its cursors swapped. -/
def swapWork (m : MergeWork wd) : MergeWork wd := { ca := m.cb, cb := m.ca, out := m.out }

theorem coScan_swap (op : MergeOp) (limit fuel : Nat) (m : MergeWork wd) :
    coScan op limit fuel (swapWork m) = (coScan op limit fuel m).map swapWork := by
  induction fuel generalizing m with
  | zero => rfl
  | succ fuel ih =>
    cases ra : m.ca.rest with
    | nil => cases rb : m.cb.rest <;> simp [coScan, swapWork, ra, rb]
    | cons wa wsA =>
      cases rb : m.cb.rest with
      | nil => simp [coScan, swapWork, ra, rb]
      | cons wb wsB =>
        simp only [coScan, swapWork, ra, rb]
        rw [stepWord_comm op wb wa]
        cases e : emit op limit (stepWord op wa wb m.ca.rem m.cb.rem).1 m.out with
        | none => rfl
        | some out =>
          simp only [Option.bind_some]
          exact ih { ca := takeUnits m.ca (stepWord op wa wb m.ca.rem m.cb.rem).2,
                     cb := takeUnits m.cb (stepWord op wa wb m.ca.rem m.cb.rem).2, out := out }

/-- "For any well-formed A and B, swapping A and B gives the same R word for word" (R194). -/
theorem mergeWords_comm (op : MergeOp) {wsA wsB : List (Word wd)} (ha : WordsOk wsA) (hb : WordsOk wsB) :
    mergeWords op wsA wsB = mergeWords op wsB wsA := by
  obtain ⟨m, xs, ys, e1, e2, e3, e4, e5, _⟩ :=
    coScan_spec op (limit := (1 + wsA.length) + (1 + wsB.length)) (wsA.length + wsB.length)
      { ca := cursorAt wsA, cb := cursorAt wsB, out := [] } (.cursorAt ha) (.cursorAt hb) .nil
      (by simp [cursorAt_rest]) (by simp [cursorAt_rest]; omega)
  have e1' := coScan_swap op ((1 + wsA.length) + (1 + wsB.length)) (wsA.length + wsB.length)
    { ca := cursorAt wsA, cb := cursorAt wsB, out := [] }
  rw [e1, Option.map_some] at e1'
  have ht : tailWords op (swapWork m) = tailWords op m := by
    cases op
    · show restWords m.cb ++ restWords m.ca = restWords m.ca ++ restWords m.cb
      rcases e5 with h | h
      · rw [show restWords m.ca = [] by rw [restWords, h]]; simp
      · rw [show restWords m.cb = [] by rw [restWords, h]]; simp
    · rfl
  simp only [mergeWords]
  rw [e1, Option.bind_some, Nat.add_comm (1 + wsB.length), Nat.add_comm wsB.length]
  rw [show ({ ca := cursorAt wsB, cb := cursorAt wsA, out := [] } : MergeWork wd)
    = swapWork { ca := cursorAt wsA, cb := cursorAt wsB, out := [] } from rfl, e1', Option.bind_some, ht]
  rfl

/-! ### Canonical operands -/

theorem apartOrFull_comm (v w : Word wd) : apartOrFull v w = apartOrFull w v := by
  rw [apartOrFull, apartOrFull, apart, apart, Bool.and_comm (isRun v), Nat.add_comm (runLen v), Bool.beq_comm]

/-- The staging sequence of a merge of canonical operands, newest word first. -/
def Staged (out : List (Word wd)) : Prop :=
  (∀ w ∈ out, canonicalWord w = true) ∧ out.IsChain fun v w => apartOrFull v w = true

/-- Emit keeps the staging sequence canonical up to the limit (R175, R176). -/
theorem Staged.emit {op : MergeOp} {limit : Nat} {w : Word wd} {out out' : List (Word wd)} (hs : Staged out)
    (hw : canonicalWord (normalize op w) = true) (h : emit op limit w out = some out') : Staged out' := by
  rcases emit_cases h with ⟨last, older, rfl, h1, h2, h3, h4, rfl⟩ | ⟨rfl, _, hn⟩
  · have hc := List.isChain_cons.1 hs.2
    refine ⟨fun x hx => ?_, List.isChain_cons.2 ⟨fun x hx => ?_, hc.2⟩⟩
    · rcases List.mem_cons.1 hx with rfl | hx
      · exact canonicalWord_run (isRun_mkRun h4)
      · exact hs.1 x (List.mem_cons_of_mem _ hx)
    · have := hc.1 x hx
      simp only [apartOrFull, Bool.or_eq_true, decide_eq_true_eq] at this
      rcases this with ha | ha
      · apply apartOrFull_of_apart; apply apart_of_fill
        intro _ hx1; rw [runOnes_mkRun h4, ← h3]; exact apart_runs ha h1 hx1
      · apply apartOrFull_of_long; rw [runLen_mkRun h4]; omega
  · refine ⟨fun x hx => ?_, List.isChain_cons.2 ⟨fun x hx => ?_, hs.2⟩⟩
    · rcases List.mem_cons.1 hx with rfl | hx
      · exact hw
      · exact hs.1 x hx
    · by_cases hr : isRun x = true ∧ isRun (normalize op w) = true ∧ runOnes x = runOnes (normalize op w)
      · have := hn x hx hr.1 hr.2.1 hr.2.2
        apply apartOrFull_of_long; omega
      · apply apartOrFull_of_apart; apply apart_of_fill
        intro a b c; exact hr ⟨b, a, c.symm⟩

theorem canonicalWord_cases {w : Word wd} (h : canonicalWord w = true) (hr : isRun w = false) :
    w ≠ 0 ∧ w ≠ allOnes wd := by
  rw [canonicalWord, hr, Bool.false_or, Bool.and_eq_true, decide_eq_true_eq, decide_eq_true_eq] at h
  exact h

/-- A literal that is not the value its operation normalizes, and not the other constant, is canonical once
normalized (R174, R192). -/
theorem canonical_normalize_or {w : Word wd} (hr : isRun w = false) (h : w ≠ 0) :
    canonicalWord (normalize .or w) = true := by
  unfold normalize
  rw [if_neg (by simp [hr])]
  simp only
  split
  · exact canonicalWord_run (isRun_mkRun (maxRun_pos wd))
  · exact canonicalWord_literal h (by assumption)

theorem canonical_normalize_and {w : Word wd} (hr : isRun w = false) (h : w ≠ allOnes wd) :
    canonicalWord (normalize .and w) = true := by
  unfold normalize
  rw [if_neg (by simp [hr])]
  simp only
  split
  · exact canonicalWord_run (isRun_mkRun (maxRun_pos wd))
  · exact canonicalWord_literal (by assumption) h

theorem or_ne_zero {x y : Word wd} (h : x ≠ 0) : x ||| y ≠ 0 := by
  intro e
  apply h
  apply BitVec.eq_of_getLsbD_eq
  intro i _
  have := congrArg (fun w : Word wd => w.getLsbD i) e
  simp at this
  simp [this.1]

theorem and_ne_allOnes {x y : Word wd} (hx : isRun x = false) (h : x ≠ allOnes wd) : x &&& y ≠ allOnes wd := by
  intro e
  apply h
  refine literal_ext hx (isRun_allOnes wd) fun i hi => ?_
  have := congrArg (fun w : Word wd => w.getLsbD i) e
  simp [allOnes_getLsbD, hi] at this
  simp [allOnes_getLsbD, hi, this.1]

theorem allOnes_ne_zero (wd : Width) : allOnes wd ≠ 0 := by cases wd <;> decide

/-- A co-scan step of canonical words emits a word that is canonical once normalized (R192). -/
theorem canonical_lit {op : MergeOp} {x : Word wd} (y : Word wd) (hx : canonicalWord x = true)
    (hr : isRun x = false) (hy : isRun y = false) : canonicalWord (normalize op (op.lit x y)) = true := by
  obtain ⟨h0, h1⟩ := canonicalWord_cases hx hr
  cases op
  · exact canonical_normalize_or (MergeOp.isRun_lit .or hr hy) (or_ne_zero h0)
  · exact canonical_normalize_and (MergeOp.isRun_lit .and hr hy) (and_ne_allOnes hr h1)

theorem canonical_stepWord (op : MergeOp) {wa wb : Word wd} {ra rb : Nat} (ha : canonicalWord wa = true)
    (hb : canonicalWord wb = true) (hm : min ra rb ≤ maxRun wd) :
    canonicalWord (normalize op (stepWord op wa wb ra rb).1) = true := by
  cases hA : isRun wa <;> cases hB : isRun wb
  · have he : stepWord op wa wb ra rb = (op.lit wa wb, 1) := by simp [stepWord, hA, hB]
    rw [he]; exact canonical_lit wb ha hA hB
  · have he : stepWord op wa wb ra rb = (op.lit wa (fillWord wd (runOnes wb)), 1) := by simp [stepWord, hA, hB]
    rw [he]; exact canonical_lit _ ha hA (isRun_fillWord wd _)
  · have he : stepWord op wa wb ra rb = (op.lit wb (fillWord wd (runOnes wa)), 1) := by simp [stepWord, hA, hB]
    rw [he]; exact canonical_lit _ hb hB (isRun_fillWord wd _)
  · have he : stepWord op wa wb ra rb = (mkRun (op.fill (runOnes wa) (runOnes wb)) (min ra rb), min ra rb) := by
      simp [stepWord, hA, hB]
    rw [he]
    have hr := isRun_mkRun (f := op.fill (runOnes wa) (runOnes wb)) hm
    rw [normalize_run op hr]
    exact canonicalWord_run hr

theorem span_le (w : Word wd) : span w ≤ maxRun wd := by
  rw [span]; split
  · exact runLen_le w
  · exact maxRun_pos wd

theorem takeUnits_rest_subset {c : Cursor wd} {n : Nat} {w : Word wd} (h : w ∈ (takeUnits c n).rest) : w ∈ c.rest := by
  rw [takeUnits] at h
  split at h
  · rw [cursorAt_rest] at h; exact List.mem_of_mem_tail h
  · exact h

theorem coScan_staged (op : MergeOp) {limit : Nat} (fuel : Nat) (m : MergeWork wd) (ha : CursorOk m.ca)
    (hb : CursorOk m.cb) (ca : ∀ w ∈ m.ca.rest, canonicalWord w = true)
    (cb : ∀ w ∈ m.cb.rest, canonicalWord w = true) (hs : Staged m.out) {m' : MergeWork wd}
    (h : coScan op limit fuel m = some m') :
    Staged m'.out ∧ (∀ w ∈ m'.ca.rest, canonicalWord w = true) ∧ (∀ w ∈ m'.cb.rest, canonicalWord w = true) := by
  induction fuel generalizing m with
  | zero => cases h; exact ⟨hs, ca, cb⟩
  | succ fuel ih =>
    cases ra : m.ca.rest with
    | nil => simp [coScan, ra] at h; subst h; exact ⟨hs, ca, cb⟩
    | cons wa wsA =>
      cases rb : m.cb.rest with
      | nil => simp [coScan, ra, rb] at h; subst h; exact ⟨hs, ca, cb⟩
      | cons wb wsB =>
        simp only [coScan, ra, rb] at h
        obtain ⟨out, ho, h⟩ := Option.bind_eq_some_iff.1 h
        obtain ⟨h1, h2, h3, _, _, _⟩ := stepWord_spec op ha hb ra rb
        have hrem := (ha.2 wa (by rw [ra]; rfl)).2
        have hspan := span_le wa
        refine ih _ (takeUnits_spec ha ra h1 h2).1 (takeUnits_spec hb rb h1 h3).1 ?_ ?_ ?_ h
        · exact fun w hw => ca w (takeUnits_rest_subset hw)
        · exact fun w hw => cb w (takeUnits_rest_subset hw)
        · exact hs.emit (canonical_stepWord op (ca wa (by simp [ra])) (cb wb (by simp [rb])) (by omega)) ho

theorem normalize_canonical (op : MergeOp) {w : Word wd} (h : canonicalWord w = true) : normalize op w = w := by
  by_cases hr : isRun w = true
  · exact normalize_run op hr
  · have hr' : isRun w = false := by simpa using hr
    obtain ⟨h0, h1⟩ := canonicalWord_cases h hr'
    unfold normalize
    rw [if_neg hr]
    cases op
    · exact if_neg h1
    · exact if_neg h0

theorem emitAll_staged (op : MergeOp) {limit : Nat} (ws out : List (Word wd))
    (hw : ∀ w ∈ ws, canonicalWord w = true) (hs : Staged out) {out' : List (Word wd)}
    (h : emitAll op limit ws out = some out') : Staged out' := by
  induction ws generalizing out with
  | nil => cases h; exact hs
  | cons w ws ih =>
    obtain ⟨o1, h1, h2⟩ := Option.bind_eq_some_iff.1 h
    have hc := hw w (by simp)
    exact ih o1 (fun v hv => hw v (List.mem_cons_of_mem _ hv))
      (hs.emit (by rw [normalize_canonical op hc]; exact hc) h1) h2

theorem restWords_canonical {c : Cursor wd} (hc : CursorOk c) (h : ∀ w ∈ c.rest, canonicalWord w = true) :
    ∀ w ∈ restWords c, canonicalWord w = true := by
  rw [restWords]
  cases hr : c.rest with
  | nil => simp
  | cons w ws =>
    have hrem := (hc.2 w (by rw [hr]; rfl)).2
    have hsp := span_le w
    intro v hv
    rcases List.mem_cons.1 hv with rfl | hv
    · split
      · exact canonicalWord_run (isRun_mkRun (by omega))
      · exact h w (by simp [hr])
    · exact h v (by simp [hr, hv])

theorem Canonical.words {ws : List (Word wd)} (h : Canonical ws) : ∀ w ∈ ws, canonicalWord w = true := h.2.1

/-- The trim keeps the words or drops them all. -/
theorem trim_cases (ws : List (Word wd)) : trim ws = ws ∨ trim ws = [] := by
  rcases ws with _ | ⟨w, _ | ⟨v, ws⟩⟩
  · exact .inl rfl
  · rw [trim]
    split
    · exact .inr rfl
    · exact .inl rfl
  · exact .inl rfl

/-- Canonical operands give an output that is canonical up to the MAXRUN limit (R192). -/
theorem canonical_mergeWords (op : MergeOp) {wsA wsB out : List (Word wd)} (ha : Canonical wsA)
    (hb : Canonical wsB) (h : mergeWords op wsA wsB = some out) : CanonicalUpToLimit out := by
  obtain ⟨out', h1, h2, _, _⟩ := mergeWords_spec op ha.1 hb.1
  cases h.symm.trans h1
  rw [mergeWords] at h
  obtain ⟨m, e1, h⟩ := Option.bind_eq_some_iff.1 h
  obtain ⟨o, e2, h⟩ := Option.map_eq_some_iff.1 h
  obtain ⟨m', _, _, e1', c1, c2, _⟩ :=
    coScan_spec op (limit := (1 + wsA.length) + (1 + wsB.length)) (wsA.length + wsB.length)
      { ca := cursorAt wsA, cb := cursorAt wsB, out := [] } (.cursorAt ha.1) (.cursorAt hb.1) .nil
      (by simp [cursorAt_rest]) (by simp [cursorAt_rest]; omega)
  cases e1.symm.trans e1'
  obtain ⟨s1, s2, s3⟩ := coScan_staged op _ _ (.cursorAt ha.1) (.cursorAt hb.1)
    (by rw [cursorAt_rest]; exact ha.words) (by rw [cursorAt_rest]; exact hb.words)
    ⟨by simp, by simp⟩ e1
  have ht : ∀ w ∈ tailWords op m, canonicalWord w = true := by
    cases op
    · intro w hw
      rcases List.mem_append.1 hw with hw | hw
      · exact restWords_canonical c1 s2 w hw
      · exact restWords_canonical c2 s3 w hw
    · intro w hw; cases hw
  have hs := emitAll_staged op _ _ ht s1 e2
  have hrev : (∀ w ∈ o.reverse, canonicalWord w = true) ∧ o.reverse.IsChain fun v w => apartOrFull v w = true := by
    refine ⟨fun w hw => hs.1 w (List.mem_reverse.1 hw), List.isChain_reverse.2 ?_⟩
    exact hs.2.imp fun v w hvw => by rw [apartOrFull_comm]; exact hvw
  rcases trim_cases o.reverse with e | e
  · rw [e] at h; subst h; exact ⟨h2, hrev⟩
  · rw [e] at h; subst h; exact ⟨.nil, by simp, by simp⟩

/-! ### One empty operand -/

/-- Emitting canonical words copies them (R181, R194). -/
theorem emitAll_canonical (op : MergeOp) {limit : Nat} (ws out : List (Word wd))
    (hw : ∀ w ∈ ws, canonicalWord w = true) (hc : (out.reverse ++ ws).IsChain fun v w => apart v w = true)
    (hl : out.length + ws.length + 1 ≤ limit) : emitAll op limit ws out = some (ws.reverse ++ out) := by
  induction ws generalizing out with
  | nil => rfl
  | cons w ws ih =>
    simp only [List.length_cons] at hl
    have hwc := hw w (by simp)
    obtain ⟨o, ho⟩ := emit_isSome op (limit := limit) w (out := out) (by omega)
    have ho' : o = w :: out := by
      rcases emit_cases ho with ⟨last, older, rfl, h1, h2, h3, _, _⟩ | ⟨e, _, _⟩
      · exfalso
        rw [normalize_canonical op hwc] at h2 h3
        have := (List.isChain_append.1 hc).2.2 last (by simp) w (by simp)
        exact apart_runs this h1 h2 h3
      · rw [e, normalize_canonical op hwc]
    rw [emitAll, ho, Option.bind_some, ho', ih (w :: out) (fun v hv => hw v (List.mem_cons_of_mem _ hv))
      (by simpa using hc) (by simp only [List.length_cons]; omega)]
    simp

/-- "For a canonical A, MERGE_OR with an empty B gives R equal to A word for word, unless A is a single all-zero run
(then R = [1])" (R194). -/
theorem mergeWords_or_nil {ws : List (Word wd)} (h : Canonical ws) : mergeWords .or ws [] = some (trim ws) := by
  have hscan : ∀ limit fuel, coScan .or limit fuel
      { ca := cursorAt ws, cb := cursorAt ([] : List (Word wd)), out := [] }
      = some { ca := cursorAt ws, cb := cursorAt [], out := [] } := by
    intro limit fuel
    cases fuel with
    | zero => rfl
    | succ fuel => cases ws <;> simp [coScan, cursorAt]
  have hrest : restWords (cursorAt ws) = ws := by
    cases ws with
    | nil => rfl
    | cons w ws =>
      simp only [cursorAt, restWords]
      split
      · rename_i hr
        rw [span, if_pos hr, mkRun_fields hr]
      · rfl
  rw [mergeWords]
  simp only [hscan, Option.bind_some]
  have ht : tailWords .or ({ ca := cursorAt ws, cb := cursorAt [], out := [] } : MergeWork wd) = ws := by
    show restWords (cursorAt ws) ++ [] = ws
    rw [hrest, List.append_nil]
  rw [ht, emitAll_canonical .or ws [] h.words (by simpa using h.2.2) (by simp)]
  simp

/-- "MERGE_AND with an empty operand gives R = [1]" (R194). -/
theorem mergeWords_and_nil (ws : List (Word wd)) : mergeWords .and ws [] = some [] := by
  have hscan : ∀ limit fuel, coScan .and limit fuel
      { ca := cursorAt ws, cb := cursorAt ([] : List (Word wd)), out := [] }
      = some { ca := cursorAt ws, cb := cursorAt [], out := [] } := by
    intro limit fuel
    cases fuel with
    | zero => rfl
    | succ fuel => cases ws <;> simp [coScan, cursorAt]
  rw [mergeWords]
  simp only [hscan, Option.bind_some]
  rfl

end Sys2Proof.Machine
end

