-- ==== Sys2Proof/Laws/PerInstr.lean ====
section
/-! SUPPORT. The family FieldsLegal, stated per command: the word of a well-formed command carries the OP and BSEL
of its row of R84, RSV = 0, and a slot number in IDX only on WRITE_WORD and READ_WORD (R80, R82). -/

namespace Sys2Proof.Laws.FieldsLegal

open Sys2Proof

def Statement (i : Instr) : Prop :=
  i.wellFormed = true →
    (fieldOp (encode i), fieldBsel (encode i)) = opcodeOf i ∧ fieldRsv (encode i) = 0 ∧ fieldIdx (encode i) = i.slot
      ∧ (takesSlot (fieldOp (encode i)) = true ∨ i.slot = 0)

/-- A command's fields do not run into each other. -/
theorem of_opcode {i : Instr} (h1 : (opcodeOf i).1 < 256) (h2 : (opcodeOf i).2 < 4)
    (h3 : takesSlot (opcodeOf i).1 = true ∨ i.slot = 0) : Statement i := by
  intro hw
  have hs : i.slot < 65536 := of_decide_eq_true hw
  have e : (encode i).toNat = (opcodeOf i).1 + (opcodeOf i).2 * 256 + i.slot * 65536 := by
    rw [encode, BitVec.toNat_ofNat]; omega
  have e1 : fieldOp (encode i) = (opcodeOf i).1 := by rw [fieldOp, e]; omega
  have e2 : fieldBsel (encode i) = (opcodeOf i).2 := by rw [fieldBsel, e]; omega
  have e3 : fieldRsv (encode i) = 0 := by rw [fieldRsv, e]; omega
  have e4 : fieldIdx (encode i) = i.slot := by rw [fieldIdx, e]; omega
  rw [e1, e2, e3, e4]
  exact ⟨rfl, rfl, rfl, h3⟩

theorem nop : Statement .nop := of_opcode (by decide) (by decide) (.inr rfl)
theorem clearA : Statement .clearA := of_opcode (by decide) (by decide) (.inr rfl)
theorem clearB : Statement .clearB := of_opcode (by decide) (by decide) (.inr rfl)
theorem clearR : Statement .clearR := of_opcode (by decide) (by decide) (.inr rfl)
theorem writeWordA (i : Nat) : Statement (.writeWordA i) := of_opcode (by simp [opcodeOf]) (by simp [opcodeOf]) (.inl rfl)
theorem writeWordB (i : Nat) : Statement (.writeWordB i) := of_opcode (by simp [opcodeOf]) (by simp [opcodeOf]) (.inl rfl)
theorem readWordA (i : Nat) : Statement (.readWordA i) := of_opcode (by simp [opcodeOf]) (by simp [opcodeOf]) (.inl rfl)
theorem readWordB (i : Nat) : Statement (.readWordB i) := of_opcode (by simp [opcodeOf]) (by simp [opcodeOf]) (.inl rfl)
theorem readWordR (i : Nat) : Statement (.readWordR i) := of_opcode (by simp [opcodeOf]) (by simp [opcodeOf]) (.inl rfl)
theorem insertA : Statement .insertA := of_opcode (by decide) (by decide) (.inr rfl)
theorem insertB : Statement .insertB := of_opcode (by decide) (by decide) (.inr rfl)
theorem mergeOr : Statement .mergeOr := of_opcode (by decide) (by decide) (.inr rfl)
theorem mergeAnd : Statement .mergeAnd := of_opcode (by decide) (by decide) (.inr rfl)
theorem moveRA : Statement .moveRA := of_opcode (by decide) (by decide) (.inr rfl)
theorem moveRB : Statement .moveRB := of_opcode (by decide) (by decide) (.inr rfl)
theorem clsIsRun : Statement .clsIsRun := of_opcode (by decide) (by decide) (.inr rfl)
theorem clsRunLen : Statement .clsRunLen := of_opcode (by decide) (by decide) (.inr rfl)
theorem clsRunOnes : Statement .clsRunOnes := of_opcode (by decide) (by decide) (.inr rfl)
theorem clsMaxRun : Statement .clsMaxRun := of_opcode (by decide) (by decide) (.inr rfl)
theorem clsPosInWord : Statement .clsPosInWord := of_opcode (by decide) (by decide) (.inr rfl)
theorem clsWordsNeeded : Statement .clsWordsNeeded := of_opcode (by decide) (by decide) (.inr rfl)
theorem clsBase : Statement .clsBase := of_opcode (by decide) (by decide) (.inr rfl)

end Sys2Proof.Laws.FieldsLegal
end

