-- ==== Sys2Proof/Laws/Step.lean ====
section
/-! SUPPORT. What one step is, by whose turn it is. -/

namespace Sys2Proof.Machine

theorem State.turn_engine {s : State} (h : EngineMoves s) : s.turn = .engine := by
  obtain ⟨_, h2, h3⟩ := h
  unfold State.turn
  rcases hs : s.schedule with _ | ⟨t, q⟩
  · simp [h2]
  · cases t <;> simp_all

theorem State.turn_host {s : State} (h : HostMoves s) : s.turn = .host := by
  obtain ⟨_, h2⟩ := h
  unfold State.turn
  rcases hs : s.schedule with _ | ⟨t, q⟩
  · simp_all
  · cases t <;> simp_all

/-- The host's turn (R57, R58, R93). -/
theorem step_host {s : State} (h : HostMoves s) : step s = hostStep s.takeTurn := by
  rw [step, if_pos h.1, State.turn_host h]

/-- The engine's turn on an accepted command (R86, R236). -/
theorem step_engine {s : State} (h : EngineMoves s) :
    step s = match decode s.cmdLatch with
      | .ok i => exec i s.takeTurn
      | .error _ => s.takeTurn.conclude (.error .illegal) := by
  have hb : s.takeTurn.status.busy = true := h.2.1
  rw [step, if_pos h.1, State.turn_engine h]
  simp only [engineStep, if_pos hb]
  rfl

/-- A run takes a step that answers a next state, then the rest of the run. -/
theorem run_succ_of_step {M : Host.Core} {s t : M.State} (h : M.step s = .next t) (n : Nat) :
    M.run (n + 1) s = M.run n t := by
  rw [Host.Core.run, h]

/-- `run_succ_of_step` for this machine. -/
theorem run_succ {s t : State} (h : step s = .next t) (n : Nat) :
    Host.Core.run Sys2Proof.core (n + 1) s = Host.Core.run Sys2Proof.core n t := run_succ_of_step h n

/-- Every way a step can answer a next state: an idle engine, the engine's turn on a command, or the host's. -/
theorem step_cases {s t : State} (h : step s = .next t) :
    s.params.Ok ∧ (t = s.takeTurn ∨ (∃ i, exec i s.takeTurn = .next t) ∨ t = s.takeTurn.complete .illegal
      ∨ hostStep s.takeTurn = .next t) := by
  rw [step] at h
  split at h
  · rename_i hok
    refine ⟨hok, ?_⟩
    split at h
    · rw [engineStep] at h
      split at h
      · split at h
        · exact .inr (.inl ⟨_, h⟩)
        · cases h; exact .inr (.inr (.inl rfl))
      · cases h; exact .inl rfl
    · exact .inr (.inr (.inr h))
  · cases h

/-- The effects a performed host action can have. -/
theorem hostStep_cases {s t : State} (h : hostStep s = .next t) :
    t = s
    ∨ (∃ rest r v e, t = (({ s with host := rest } : State).writeReg r v).record e)
    ∨ (∃ rest e, t = ({ s with host := rest } : State).record e)
    ∨ (∃ rest, s.host = .reset :: rest ∧ t = (State.resetEvent { s with host := rest }).record .wasReset) := by
  rw [hostStep] at h
  split at h
  · cases h; exact .inl rfl
  · rw [hostWrite] at h
    split at h
    · cases h
    · cases h; exact .inr (.inl ⟨_, _, _, _, rfl⟩)
  · rw [hostRead] at h
    split at h
    · cases h
    · cases h; exact .inr (.inr (.inl ⟨_, _, rfl⟩))
  · cases h; exact .inr (.inr (.inl ⟨_, _, rfl⟩))
  · rename_i rest e
    cases h; exact .inr (.inr (.inr ⟨rest, e, rfl⟩))
  · cases h

end Sys2Proof.Machine
end

