-- ==== Sys2Proof/Machine/Assembler.lean ====
section
/-! DEFINITION. The host assembly of 30_encoding.md section 3: mnemonics (R91) and pseudo-instructions (R92) as the
host actions they expand to. -/

namespace Sys2Proof.Machine

open Sys2Proof.Config (Params)

/-- `wr CMD, c` (R90). -/
def wrCmd (p : Params) (c : BitVec 32) : HostAction :=
  .write (p.base + HostReg.cmd.offset) 32 (c.setWidth 64)

/-- `wr ARG, v`, where `v` "may be written as a signed decimal, meaning its W-bit two's-complement encoding" (R90). -/
def wrArg (p : Params) (v : Int) : HostAction :=
  .write (p.base + HostReg.arg.offset) p.width.bits ((BitVec.ofInt p.width.bits v).setWidth 64)

/-- `rd X` (R90). -/
def rdReg (p : Params) (r : HostReg) : HostAction := .read (p.base + r.offset) (regBits p r)

/-- `issue m` (R91): the write of the word the mnemonic spells. -/
def issue (p : Params) (i : Instr) : HostAction := wrCmd p (encode i)

/-- The mnemonic of a command, without its slot number (R91). -/
def asmName : Instr → String
  | .nop => "nop"
  | .clearA => "clear.a"
  | .clearB => "clear.b"
  | .clearR => "clear.r"
  | .writeWordA _ => "ww.a"
  | .writeWordB _ => "ww.b"
  | .readWordA _ => "rw.a"
  | .readWordB _ => "rw.b"
  | .readWordR _ => "rw.r"
  | .insertA => "insert.a"
  | .insertB => "insert.b"
  | .mergeOr => "or"
  | .mergeAnd => "and"
  | .moveRA => "mov.a"
  | .moveRB => "mov.b"
  | .clsIsRun => "cls.isrun"
  | .clsRunLen => "cls.runlen"
  | .clsRunOnes => "cls.runones"
  | .clsMaxRun => "cls.maxrun"
  | .clsPosInWord => "cls.posinword"
  | .clsWordsNeeded => "cls.wordsneeded"
  | .clsBase => "cls.base"

/-- The classifiers, the `x` of `CLS.x` (R92). -/
inductive Classifier where
  | isRun
  | runLen
  | runOnes
  | maxRun
  | posInWord
  | wordsNeeded
  | base
deriving DecidableEq, Repr

/-- The command of a classifier. -/
def Classifier.instr : Classifier → Instr
  | .isRun => .clsIsRun
  | .runLen => .clsRunLen
  | .runOnes => .clsRunOnes
  | .maxRun => .clsMaxRun
  | .posInWord => .clsPosInWord
  | .wordsNeeded => .clsWordsNeeded
  | .base => .clsBase

/-- The pseudo-instructions of R92 for the operand buffers: `onB` says which one, A or B. -/
inductive Pseudo where
  | insert (onB : Bool) (pos : Int)
  | or
  | and
  | ww (onB : Bool) (i : Nat) (v : Int)
  | rw (b : Buf) (i : Nat)
  | load (onB : Bool) (ws : List Int)
  | clear (b : Buf)
  | mov (onB : Bool)
  | cls (x : Classifier)
  | check
deriving DecidableEq, Repr

/-- `WW.s i, v` (R92). -/
def expandWw (p : Params) (onB : Bool) (i : Nat) (v : Int) : List HostAction :=
  [wrArg p v, issue p (if onB then .writeWordB i else .writeWordA i), .wait]

/-- `WW.s i, w1` ... for consecutive slots from `i` (R92, LOAD). -/
def expandWords (p : Params) (onB : Bool) (i : Nat) : List Int → List HostAction
  | [] => []
  | w :: ws => expandWw p onB i w ++ expandWords p onB (i + 1) ws

/-- The expansion of a pseudo-instruction (R92). -/
def expand (p : Params) : Pseudo → List HostAction
  | .insert onB pos => [wrArg p pos, issue p (if onB then .insertB else .insertA), .wait]
  | .or => [issue p .mergeOr, .wait]
  | .and => [issue p .mergeAnd, .wait]
  | .ww onB i v => expandWw p onB i v
  | .rw .A i => [issue p (.readWordA i), .wait, rdReg p .result]
  | .rw .B i => [issue p (.readWordB i), .wait, rdReg p .result]
  | .rw .R i => [issue p (.readWordR i), .wait, rdReg p .result]
  | .load onB ws => expandWords p onB 1 ws ++ expandWw p onB 0 (ws.length + 1)
  | .clear .A => [issue p .clearA, .wait]
  | .clear .B => [issue p .clearB, .wait]
  | .clear .R => [issue p .clearR, .wait]
  | .mov onB => [issue p (if onB then .moveRB else .moveRA), .wait]
  | .cls x => [issue p x.instr, .wait, rdReg p .result]
  | .check => [rdReg p .status]

/-- The verdict of CHECK on the STATUS it read: "the program is in error if `st[1] = 1`" (R92). -/
def inError (st : BitVec 64) : Bool := st.getLsbD 1

/-- Whether the CHECK that the host has just performed found the program in error (R92): its read of STATUS is the
last event of the trace. -/
def State.checkFailed (s : State) : Bool :=
  match s.trace.getLast? with
  | some (.got .status st) => inError st
  | _ => false

end Sys2Proof.Machine
end

