-- ==== Sys2Proof/Tests/Slice0.lean ====
section
/-! SUPPORT. Tests of the model against the vectors of 95_test_vectors.md (named V1 to V26 below), and a witness for the
hypotheses of each statement. -/

namespace Sys2Proof.Tests

open Sys2Proof Sys2Proof.Machine

variable {wd : Width}

/-! ### Small states -/

/-- A buffer holding the bitmap `ws`, its other slots unspecified. -/
def bitmap (wd : Width) (ws : List Nat) : Buffer wd :=
  { mem := Memory.number 0 (((1 + ws.length) :: ws).map (BitVec.ofNat wd.bits)), epoch := 0 }

/-- An instance with the command `word` accepted, operand `arg`, RESULT 7, and three bitmaps. -/
def running (wd : Width) (depth word arg : Nat) (a b r : List Nat) : State :=
  { State.resetOf { width := wd, depth := depth, base := 0, hostByteOrder := .little } with
    cmdLatch := BitVec.ofNat 32 word
    argLatch := BitVec.ofNat wd.bits arg
    result := BitVec.ofNat wd.bits 7
    status := { busy := true, err := false, ovr := false, code := .ok }
    bufA := bitmap wd a
    bufB := bitmap wd b
    bufR := bitmap wd r }

/-- The same instance idle at address 0x1000, with the host about to do `acts`. -/
def hosted (busy : Bool) (acts : List HostAction) : State :=
  { State.resetOf { width := .w32, depth := 64, base := 0x1000, hostByteOrder := .little } with
    status := { busy := busy, err := false, ovr := false, code := .ok }
    arg := 5
    host := acts
    schedule := [.host] }

/-- What is observed after a step (R244), `none` where it gives no next state. -/
def after (o : Host.Outcome State Fault Refusal) : Option Observation :=
  match o with
  | .next t => some t.observe
  | _ => none

/-- RESULT and STATUS after a step. -/
def resultStatus (o : Host.Outcome State Fault Refusal) : Option (Nat × Nat) :=
  (after o).map fun x => (x.result, x.status)

/-- The slots `0 .. len - 1` of A, B and R after a step. -/
def buffers (o : Host.Outcome State Fault Refusal) : Option (List Nat × List Nat × List Nat) :=
  (after o).map fun x => (x.bufA, x.bufB, x.bufR)

/-- The V1 end state in A. -/
def v1 : List Nat := [0x00000010, 0x80000003, 0xC0000002]

/-! ### Well-formedness and decoding -/

/-- R80, R82: IDX has 16 bits. -/
theorem test_slot_past_the_field_is_refused :
    ([.writeWordA 65536, .writeWordB 65536, .readWordA 65536, .readWordB 65536, .readWordR 70000] : List Instr).all
      (fun i => !i.wellFormed) = true := by decide

theorem test_slot_inside_the_field_is_accepted :
    ([.writeWordA 65535, .readWordR 0, .nop] : List Instr).all Instr.wellFormed = true := by decide

/-- R84: IDX | RSV | BSEL | OP, written out bit by bit. -/
theorem test_decode_nop_clear :
    decode 0b0000000000000000_000000_00_00000000 = .ok .nop
    ∧ decode 0b0000000000000000_000000_00_00000001 = .ok .clearA
    ∧ decode 0b0000000000000000_000000_01_00000001 = .ok .clearB
    ∧ decode 0b0000000000000000_000000_10_00000001 = .ok .clearR := by decide

theorem test_decode_slots :
    decode 0b0000000000000011_000000_00_00000010 = .ok (.writeWordA 3)
    ∧ decode 0b1000000000000000_000000_01_00000010 = .ok (.writeWordB 32768)
    ∧ decode 0b0000000000000001_000000_00_00000011 = .ok (.readWordA 1)
    ∧ decode 0b0000000001000000_000000_01_00000011 = .ok (.readWordB 64)
    ∧ decode 0b0000000000000101_000000_10_00000011 = .ok (.readWordR 5) := by decide

theorem test_decode_insert_merge_move :
    decode 0b0000000000000000_000000_00_00000100 = .ok .insertA
    ∧ decode 0b0000000000000000_000000_01_00000100 = .ok .insertB
    ∧ decode 0b0000000000000000_000000_00_00000101 = .ok .mergeOr
    ∧ decode 0b0000000000000000_000000_00_00000110 = .ok .mergeAnd
    ∧ decode 0b0000000000000000_000000_00_00000111 = .ok .moveRA
    ∧ decode 0b0000000000000000_000000_01_00000111 = .ok .moveRB := by decide

theorem test_decode_classifier :
    decode 0b0000000000000000_000000_00_00010000 = .ok .clsIsRun
    ∧ decode 0b0000000000000000_000000_00_00010001 = .ok .clsRunLen
    ∧ decode 0b0000000000000000_000000_00_00010010 = .ok .clsRunOnes
    ∧ decode 0b0000000000000000_000000_00_00010011 = .ok .clsMaxRun
    ∧ decode 0b0000000000000000_000000_00_00010100 = .ok .clsPosInWord
    ∧ decode 0b0000000000000000_000000_00_00010101 = .ok .clsWordsNeeded
    ∧ decode 0b0000000000000000_000000_00_00010110 = .ok .clsBase := by decide

/-- The illegal words of V8. -/
theorem test_decode_illegal :
    ([0x8, 0x17, 0x301, 0x204, 0x202, 0x207, 0x105, 0x405, 0x10004, 0x10000] : List (BitVec 32)).all
      (fun c => match decode c with
        | .ok _ => false
        | .error _ => true) = true := by decide

/-! ### Steps -/

/-- P1's first insert as the first instruction after reset. -/
theorem test_step_runs_the_placed_word :
    after (step ({ State.reset with arg := 5 }.withFetchWord 32 0x00000004))
      = some { result := 2, status := 0, arg := 5, bufA := [2, 0x10], bufB := [1], bufR := [1], faults := [] } := by
  decide

/-- V8: an illegal word gives STATUS 0x72 and nothing else. -/
theorem test_step_illegal :
    after (step (State.reset.withFetchWord 32 0x00000204))
      = some { result := 0, status := 0x72, arg := 0, bufA := [1], bufB := [1], bufR := [1], faults := [.illegal] } := by
  decide

/-- V26: a CMD write while busy is dropped, and STATUS then reads BUSY and OVR. -/
theorem test_step_overrun : resultStatus (step (hosted true [.write 0x1000 32 4])) = some (0, 5) := by decide

/-- V25: CFG of the instance W = 32, DEPTH = 64. -/
theorem test_cfg_word : cfgWord Config.exampleParams = 0x00004020 := by decide

/-! ### One command each -/

theorem test_nop : after (exec .nop (running .w32 64 0 0 [3] [4] [5])) =
    some { result := 7, status := 0, arg := 0, bufA := [2, 3], bufB := [2, 4], bufR := [2, 5], faults := [] } := by
  decide

/-- V9. -/
theorem test_clear_A : after (exec .clearA (running .w32 64 0 0 v1 [] [])) =
    some { result := 1, status := 0, arg := 0, bufA := [1], bufB := [1], bufR := [1], faults := [] } := by decide

theorem test_clear_B : buffers (exec .clearB (running .w64 64 0 0 [3] [5] [6])) = some ([2, 3], [1], [2, 6]) := by
  decide

theorem test_clear_R : buffers (exec .clearR (running .w64 64 0 0 [3] [5] [6])) = some ([2, 3], [2, 5], [1]) := by
  decide

/-- V9: the last slot is writable, the slot after it faults INDEX and is not written. -/
theorem test_write_word_A :
    (match exec (.writeWordA 63) (running .w32 64 0 0x12345678 [0x10] [] []) with
      | .next t => decide ((t.bufA.read .A 63).toNat = 0x12345678 ∧ t.observe.bufA = [2, 0x10] ∧ t.observe.result = 7)
      | _ => false) = true := by decide

theorem test_write_word_A_past_the_end :
    after (exec (.writeWordA 64) (running .w32 64 0 9 [0x10] [] [])) =
      some { result := 7, status := 0x62, arg := 0, bufA := [2, 0x10], bufB := [1], bufR := [1], faults := [.index] } := by
  decide

theorem test_write_word_B :
    buffers (exec (.writeWordB 1) (running .w32 64 0 0x80000000 [1] [2] [3]))
      = some ([2, 1], [2, 0x80000000], [2, 3]) := by decide

/-- V9. -/
theorem test_read_word_A : resultStatus (exec (.readWordA 3) (running .w32 64 0 0 v1 [] [])) = some (0xC0000002, 0) := by
  decide

theorem test_read_word_B_past_the_end :
    resultStatus (exec (.readWordB 64) (running .w32 64 0 0 [] [] [])) = some (7, 0x62) := by decide

theorem test_read_word_B : resultStatus (exec (.readWordB 0) (running .w32 64 0 0 [] [9] [])) = some (2, 0) := by decide

/-- V9: R has twice the slots. -/
theorem test_read_word_R :
    resultStatus (exec (.readWordR 1) (running .w32 2 0 0 [] [] [5])) = some (5, 0)
    ∧ resultStatus (exec (.readWordR 128) (running .w32 64 0 0 [] [] [])) = some (7, 0x62) := by decide

/-- V9 and V10. -/
theorem test_move_R_A :
    buffers (exec .moveRA (running .w32 64 0 0 [] [] [0xC0000020, 0xFF]))
      = some ([3, 0xC0000020, 0xFF], [1], [3, 0xC0000020, 0xFF]) := by decide

theorem test_move_R_A_capacity :
    after (exec .moveRA (running .w32 2 0 0 [1] [] [1, 0x80000001]))
      = some { result := 7, status := 0x22, arg := 0, bufA := [2, 1], bufB := [1], bufR := [3, 1, 0x80000001],
               faults := [.capacity] } := by decide

theorem test_move_R_B : after (exec .moveRB (running .w32 64 0 0 [3] [4] [])) =
    some { result := 1, status := 0, arg := 0, bufA := [2, 3], bufB := [1], bufR := [1], faults := [] } := by decide

/-- V5. -/
theorem test_cls_is_run :
    resultStatus (exec .clsIsRun (running .w32 64 0 0x80000000 [] [] [])) = some (1, 0)
    ∧ resultStatus (exec .clsIsRun (running .w32 64 0 0x7FFFFFFF [] [] [])) = some (0, 0) := by decide

/-- V5, V7. -/
theorem test_cls_run_len :
    resultStatus (exec .clsRunLen (running .w32 64 0 0x7FFFFFFF [] [] [])) = some (0x3FFFFFFF, 0)
    ∧ resultStatus (exec .clsRunLen (running .w64 64 0 0xC000000000000010 [] [] [])) = some (16, 0) := by decide

/-- V5. -/
theorem test_cls_run_ones :
    resultStatus (exec .clsRunOnes (running .w32 64 0 0x40000000 [] [] [])) = some (1, 0)
    ∧ resultStatus (exec .clsRunOnes (running .w32 64 0 0x80000001 [] [] [])) = some (0, 0) := by decide

/-- V5, V7. -/
theorem test_cls_max_run :
    resultStatus (exec .clsMaxRun (running .w32 64 0 0 [] [] [])) = some (0x3FFFFFFF, 0)
    ∧ resultStatus (exec .clsMaxRun (running .w64 64 0 0 [] [] [])) = some (0x3FFFFFFFFFFFFFFF, 0) := by decide

/-- V6. -/
theorem test_cls_pos_in_word :
    resultStatus (exec .clsPosInWord (running .w32 64 0 31 [] [] [])) = some (31, 0)
    ∧ resultStatus (exec .clsPosInWord (running .w32 64 0 0x80000000 [] [] [])) = some (7, 0x12) := by decide

/-- V6, V7. -/
theorem test_cls_words_needed :
    resultStatus (exec .clsWordsNeeded (running .w32 64 0 0x3FFFFFFF [] [] [])) = some (34636833, 0)
    ∧ resultStatus (exec .clsWordsNeeded (running .w64 64 0 4611686018427387903 [] [] []))
      = some (73201365371863301, 0) := by decide

/-- V5, V7. -/
theorem test_cls_base :
    resultStatus (exec .clsBase (running .w32 64 0 0 [] [] [])) = some (31, 0)
    ∧ resultStatus (exec .clsBase (running .w64 64 0 0 [] [] [])) = some (63, 0) := by decide

/-- V11: an interior split. -/
theorem test_insert_A_split :
    after (exec .insertA (running .w32 64 0 40 [0x80000010, 8] [] [])) =
      some { result := 5, status := 0, arg := 0, bufA := [5, 0x80000001, 0x100, 0x8000000E, 8], bufB := [1], bufR := [1],
             faults := [] } := by decide

/-- V13: a fuse refused at MAXRUN. -/
theorem test_insert_A_fuse_limit :
    buffers (exec .insertA (running .w32 64 0 156 [0xC0000005, 0x7FFFFFFE, 0xFFFFFFFF] [] []))
      = some ([3, 0xC0000006, 0xFFFFFFFF], [1], [1]) := by decide

/-- V14: the last position, both widths. -/
theorem test_insert_B_last_position :
    buffers (exec .insertB (running .w32 64 0 0x3FFFFFFF [] [] [])) = some ([1], [3, 0x82108420, 0x40000000], [1])
    ∧ buffers (exec .insertB (running .w64 64 0 0x3FFFFFFFFFFFFFFF [] [] []))
      = some ([1], [3, 0x8104104104104104, 4], [1]) := by decide

/-- V15: no room for an append. -/
theorem test_insert_B_capacity :
    after (exec .insertB (running .w32 3 0 100 [] [1, 2] [])) =
      some { result := 7, status := 0x22, arg := 0, bufA := [1], bufB := [3, 1, 2], bufR := [1], faults := [.capacity] } :=
  by decide

/-- V3: scenario 3. -/
theorem test_merge_or :
    after (exec .mergeOr (running .w32 64 0 0 [0xC0000020, 0xFF] [0x80000010, 8] [])) =
      some { result := 3, status := 0, arg := 0, bufA := [3, 0xC0000020, 0xFF], bufB := [3, 0x80000010, 8],
             bufR := [3, 0xC0000020, 0xFF], faults := [] } := by decide

/-- V20: the fuse limit in the tail. -/
theorem test_merge_or_fuse_limit :
    buffers (exec .mergeOr (running .w32 64 0 0 [0xFFFFFFFF, 0xC0000002] [0xFFFFFFFF] []))
      = some ([3, 0xFFFFFFFF, 0xC0000002], [2, 0xFFFFFFFF], [3, 0xFFFFFFFF, 0xC0000002]) := by decide

/-- V22. -/
theorem test_merge_and :
    (buffers (exec .mergeAnd (running .w64 64 0 0 [0xC000000000000002, 1, 0x400]
      [0x8000000000000001, 1, 0x8000000000000001, 0x400, 0x0000800000000000] []))).map (fun x => x.2.2)
      = some [5, 0x8000000000000001, 1, 0x8000000000000001, 0x400] := by decide

/-- V24: the AND tail is discarded, and the lone all-zero run is trimmed. -/
theorem test_merge_and_disjoint :
    after (exec .mergeAnd (running .w32 64 0 0 [1] [0x80000003, 0x40] [5])) =
      some { result := 1, status := 0, arg := 0, bufA := [2, 1], bufB := [3, 0x80000003, 0x40], bufR := [1],
             faults := [] } := by decide

/-! ### The host assembly -/

/-- P1, P2 and P3: the actions `INSERT.B 500`, `RW.R 2`, `CLS.posinword` and `LOAD.A` expand to (R92). -/
theorem test_expand :
    expand Config.exampleParams (.insert true 500) = [.write 8 32 500, .write 0 32 0x104, .wait]
    ∧ expand Config.exampleParams (.rw .R 2) = [.write 0 32 0x20203, .wait, .read 0x10 32]
    ∧ expand Config.exampleParams (.cls .posInWord) = [.write 0 32 0x14, .wait, .read 0x10 32]
    ∧ expand Config.exampleParams (.load false [0xC0000020])
      = [.write 8 32 0xC0000020, .write 0 32 0x10002, .wait, .write 8 32 2, .write 0 32 2, .wait] := by decide

/-- P3: CHECK finds the program in error where STATUS reads 0x62, and R92 asks nothing else of it. -/
theorem test_check :
    (match step { hosted false [.read 0x1018 32] with status := ⟨false, true, false, .index⟩ } with
      | .next t => t.checkFailed
      | _ => false) = true
    ∧ (match step (hosted true [.read 0x1018 32]) with
      | .next t => t.checkFailed
      | _ => true) = false := by decide

/-- V18: a trailing all-zero run of a longer AND result stays, and V17: a lone one is trimmed. -/
theorem test_emitted_and :
    withoutLoneZeros (emitted .and ([1, 0] : List (Word .w32))) = [1, 0x80000001]
    ∧ withoutLoneZeros (emitted .and ([0, 0] : List (Word .w32))) = [] := by
  simp only [← trim_eq]; decide

/-- V17: ALLONES is normalized under OR and fused; V19: 0 is not. -/
theorem test_emitted_or :
    withoutLoneZeros (emitted .or ([0x7FFFFFFF, 0x7FFFFFFF] : List (Word .w32))) = [0xC0000002]
    ∧ withoutLoneZeros (emitted .or ([0] : List (Word .w32))) = [0] := by
  simp only [← trim_eq]; decide

/-- V3: the words the OR of scenario 3 passes to Emit. -/
theorem test_coScan_scenario_3 :
    CoScan .or ([0xC0000020, 0xFF] : List (Word .w32)) [0x80000010, 8] [0xC0000010, 0x7FFFFFFF, 0xC000000F, 0xFF] :=
  .runs (v := 0xC0000020) (w := 0x80000010) (by decide) (by decide)
    (.runLiteral (v := 0xC0000010) (by decide) (by decide) (.secondDone [0xC000000F, 0xFF]))

/-! ### Witnesses: states and operands that meet the hypotheses of the statements -/

/-- Neighbours of a word list, checked one pair at a time. -/
def neighbours (ws : List (Word wd)) : Bool := (ws.zip ws.tail).all fun x => apart x.1 x.2

theorem isChain_iff (ws : List (Word wd)) : (ws.IsChain fun v w => apart v w = true) ↔ neighbours ws = true := by
  induction ws with
  | nil => simp [neighbours]
  | cons v ws ih =>
    cases ws with
    | nil => simp [neighbours]
    | cons w ws => rw [List.isChain_cons_cons, ih]; simp [neighbours]

theorem wordsOk_iff (ws : List (Word wd)) : WordsOk ws ↔ (ws.all fun w => !isEmptyRun w) = true := by simp [WordsOk]

theorem canonical_iff (ws : List (Word wd)) :
    Canonical ws ↔ ((ws.all fun w => !isEmptyRun w) && ws.all canonicalWord && neighbours ws) = true := by
  rw [Canonical, isChain_iff, wordsOk_iff, Bool.and_eq_true, Bool.and_eq_true, List.all_eq_true (p := canonicalWord),
    and_assoc]

theorem witness_DecodeOfEncodeIsTheCommand : (Instr.readWordR 65535).wellFormed = true ∧ Instr.nop.wellFormed = true := by
  decide

theorem witness_EncodeOfDecodeIsTheWord :
    decode 0xFFFF0203 = .ok (.readWordR 65535) ∧ decode 0x00000016 = .ok .clsBase := by decide

theorem witness_StepRunsTheLatchedCommand :
    EngineMoves (running .w32 2 0x4 1 [] [] []) ∧ decode (running .w32 2 0x4 1 [] [] []).cmdLatch = .ok .insertA
    ∧ EngineMoves { running .w64 32768 0x4 1 [] [] [] with schedule := [.engine, .host] } := by decide

theorem witness_IllegalWordFaultsAndDoesNothing :
    EngineMoves (running .w32 64 0x204 1 [] [] []) ∧ ¬ LegalWord (running .w32 64 0x204 1 [] [] []).cmdLatch := by
  unfold LegalWord; decide

theorem witness_AcceptedCommandCompletes :
    EngineMoves (running .w32 64 0x5 1 [] [] []) ∧ EngineMoves (running .w32 64 0xFFFFFFFF 1 [] [] []) := by decide

theorem witness_FaultWritesOnlyStatus :
    ∃ t, exec .insertA (running .w32 64 4 0 [0x10] [] []) = .next t ∧ t.status.code ≠ .ok := ⟨_, rfl, by decide⟩

theorem witness_OtherCommandsLeaveR : Instr.clearA ≠ .mergeOr ∧ Instr.clearA ≠ .mergeAnd ∧ Instr.clearA ≠ .clearR := by
  decide

/-- Idle with a write, busy with a write, and a read. -/
theorem witness_CmdWriteIsAcceptedOrDropped :
    (HostMoves (hosted false [.write 0x1000 32 4]) ∧ (hosted false [.write 0x1000 32 4]).status.busy = false
      ∧ (hosted false [.write 0x1000 32 4]).host
        = .write (hosted false [.write 0x1000 32 4]).params.base 32 4 :: [])
    ∧ (HostMoves (hosted true [.write 0x1000 32 4]) ∧ (hosted true [.write 0x1000 32 4]).status.busy = true)
    ∧ HostMoves (hosted true [.read 0x1000 32])
      ∧ (hosted true [.read 0x1000 32]).host = .read (hosted true [.read 0x1000 32]).params.base 32 :: [] := by decide

theorem witness_ArgWriteChangesArgOnly :
    HostMoves (hosted true [.write 0x1008 32 9]) ∧ (hosted true [.write 0x1008 32 9]).host
      = .write ((hosted true [.write 0x1008 32 9]).params.base + 0x08)
          (hosted true [.write 0x1008 32 9]).params.width.bits 9 :: [] := by decide

theorem witness_ReadsReturnTheRegister :
    let reads (offset bits : Nat) : Prop :=
      HostMoves (hosted false [.read (0x1000 + offset) bits]) ∧ (hosted false [.read (0x1000 + offset) bits]).host
        = .read ((hosted false [.read (0x1000 + offset) bits]).params.base + offset) bits :: []
    reads 0x08 (hosted false []).params.width.bits ∧ reads 0x10 (hosted false []).params.width.bits ∧ reads 0x18 32
      ∧ reads 0x20 32 := by
  intro reads
  exact ⟨by decide, by decide, by decide, by decide⟩

theorem witness_CfgWordLayout :
    ({ width := .w32, depth := 2, base := 0, hostByteOrder := .little } : Config.Params).Ok
    ∧ ({ width := .w64, depth := 32768, base := 0, hostByteOrder := .big } : Config.Params).Ok := by decide

theorem witness_ReadOnlyRegistersIgnoreWrites :
    let ignored (offset bits : Nat) : Prop :=
      HostMoves (hosted true [.write (0x1000 + offset) bits 9]) ∧ (hosted true [.write (0x1000 + offset) bits 9]).host
        = .write ((hosted true [.write (0x1000 + offset) bits 9]).params.base + offset) bits 9 :: []
    ignored 0x10 (hosted true []).params.width.bits ∧ ignored 0x18 32 ∧ ignored 0x20 32 := by
  intro ignored
  exact ⟨by decide, by decide, by decide⟩

/-- A reserved offset, a wrong width, the first address past the block, and an address below it. -/
theorem witness_AccessOutsideTheInterfaceIsRefused :
    ([(0x1004, 32), (0x1008, 64), (0x1028, 32), (0x0FFF, 32)] : List (Nat × Nat)).all (fun x =>
      decide (HostMoves (hosted false [.write x.1 x.2 0])) && decide (HostMoves (hosted false [.read x.1 x.2]))
        && ([(0x00, 32), (0x08, 32), (0x10, 32), (0x18, 32), (0x20, 32)] : List (Nat × Nat)).all fun e =>
          !decide (x.1 = (hosted false []).params.base + e.1 ∧ x.2 = e.2)) = true := by decide

theorem witness_SecondHostIsRefused :
    HostMoves (hosted false [.otherHost]) ∧ (hosted false [.otherHost]).host = .otherHost :: [] := by decide

/-- A turn of the host, under a schedule that delays the engine. -/
theorem witness_WaitReadsStatusUntilIdle :
    (hosted true [.wait]).host = .wait :: [] ∧ HostMoves (hosted true [.wait]) ∧ (hosted true [.wait]).params.Ok := by
  decide

theorem witness_HostActionsLeaveBuffersAndResult :
    HostMoves (hosted false [.write 0x1000 32 4]) ∧ (hosted false [.write 0x1000 32 4]).host.head? ≠ some .reset
    ∧ ∃ t, step (hosted false [.write 0x1000 32 4]) = .next t := ⟨by decide, by decide, _, rfl⟩

theorem witness_ResetEventGivesTheResetState :
    HostMoves (hosted true [.reset]) ∧ (hosted true [.reset]).host = .reset :: [] := by decide

/-- An invariant state with a command to run. -/
theorem witness_EveryStepKeepsTheInvariant :
    Inv (running .w32 64 0x5 0 [1] [3] []) ∧ ∃ t, step (running .w32 64 0x5 0 [1] [3] []) = .next t :=
  ⟨⟨by unfold SlotsOk; decide, by unfold SlotsOk; decide, by unfold SlotsOk; decide, by decide, by decide⟩, _, rfl⟩

theorem witness_ResetStateMeetsTheInvariant :
    ({ width := .w64, depth := 2, base := 0, hostByteOrder := .little } : Config.Params).Ok := by decide

theorem witness_ParametersNeverChange : ∃ t, step (hosted true [.reset]) = .next t := ⟨_, rfl⟩

/-- A step that reports a fault, and one that does not. -/
theorem witness_FaultLogOnlyGrows :
    (∃ t, step (running .w32 64 0x204 0 [] [] []) = .next t ∧ t.faultLog = [.illegal])
    ∧ ∃ t, step (running .w32 64 0x1 0 [] [] []) = .next t ∧ t.faultLog = [] := ⟨⟨_, rfl, rfl⟩, _, rfl, rfl⟩

theorem witness_MoveRFaultsOnlyCapacity :
    Inv (running .w32 2 0x7 0 [] [] [1, 2]) ∧ ∃ t, exec .moveRA (running .w32 2 0x7 0 [] [] [1, 2]) = .next t :=
  ⟨⟨by unfold SlotsOk; decide, by unfold SlotsOk; decide, by unfold SlotsOk; decide, by decide, by decide⟩, _, rfl⟩

/-- The last slot and the first that does not exist, in both buffers. -/
theorem witness_WriteWordStoresArg :
    63 < (running .w32 64 0 0 [] [] []).params.depth ∧ (running .w32 64 0 0 [] [] []).params.depth ≤ 64
    ∧ (Buf.A = .A ∧ Instr.writeWordA 63 = .writeWordA 63) ∧ (Buf.B = .B ∧ Instr.writeWordB 64 = .writeWordB 64) := by
  decide

theorem witness_ReadWordGivesTheSlot :
    63 < (running .w32 64 0 0 [] [] []).params.depth ∧ (running .w32 64 0 0 [] [] []).params.depth ≤ 64
    ∧ 127 < 2 * (running .w32 64 0 0 [] [] []).params.depth ∧ 2 * (running .w32 64 0 0 [] [] []).params.depth ≤ 128
    ∧ (Buf.R = .R ∧ Instr.readWordR 127 = .readWordR 127) := by decide

/-- Slot 127 of R is unspecified here. -/
theorem witness_RereadingASlotGivesTheSameValue :
    Instr.readWordR 127 ∈ [Instr.readWordA 127, .readWordB 127, .readWordR 127]
    ∧ ∃ t, exec (.readWordR 127) (running .w32 64 0 0 [] [] []) = .next t ∧ t.status.code = .ok :=
  ⟨by decide, _, rfl, rfl⟩

/-- One state for each clause: no length, a malformed word, one slot too many for DEPTH, and a full copy. -/
theorem witness_MoveRCopiesTheResult :
    (¬ 1 ≤ (⟨[(0, 0)], 0⟩ : Buffer .w32).len .R)
    ∧ (1 ≤ (bitmap .w32 [0x80000000]).len .R ∧ ¬ WordsOk ((bitmap .w32 [0x80000000]).words .R))
    ∧ (WordsOk ((bitmap .w32 [1, 2]).words .R) ∧ 2 < (bitmap .w32 [1, 2]).len .R
      ∧ (bitmap .w32 [1, 2]).len .R ≤ 2 * 2)
    ∧ (1 ≤ (bitmap .w32 [1]).len .R ∧ (bitmap .w32 [1]).len .R ≤ 2 ∧ WordsOk ((bitmap .w32 [1]).words .R)) := by
  simp only [wordsOk_iff]; decide

/-- The first and the last position, and the values on either side of them. -/
theorem witness_ClsPosInWordGivesTheOffset :
    (ArgIsPosition (running .w32 64 0 1 [] [] []) ∧ ArgIsPosition (running .w32 64 0 0x3FFFFFFF [] [] []))
    ∧ (¬ ArgIsPosition (running .w32 64 0 0 [] [] []) ∧ ¬ ArgIsPosition (running .w32 64 0 0x40000000 [] [] [])) := by
  unfold ArgIsPosition; decide

theorem witness_ClsWordsNeededGivesTheUnit :
    (ArgIsPosition (running .w64 64 0 1 [] [] []) ∧ ArgIsPosition (running .w64 64 0 0x3FFFFFFFFFFFFFFF [] [] []))
    ∧ (¬ ArgIsPosition (running .w64 64 0 0xFFFFFFFFFFFFFFFF [] [] [])
      ∧ ¬ ArgIsPosition (running .w64 64 0 0x4000000000000000 [] [] [])) := by
  unfold ArgIsPosition; decide

/-- V15: a bad argument, a length over DEPTH, and a malformed word. -/
theorem witness_InsertChecksArgumentThenBuffer :
    ¬ ArgIsPosition (running .w32 64 4 0 [] [] [])
    ∧ (ArgIsPosition (running .w32 2 4 3 [1, 2] [] []) ∧ ¬ (running .w32 2 4 3 [1, 2] [] []).len .A ≤ 2)
    ∧ (ArgIsPosition (running .w32 64 4 3 [0x80000000] [] [])
      ∧ (1 ≤ (running .w32 64 4 3 [0x80000000] [] []).len .A ∧ (running .w32 64 4 3 [0x80000000] [] []).len .A ≤ 64)
      ∧ ¬ WordsOk ((running .w32 64 4 3 [0x80000000] [] []).words .A)) := by
  simp only [wordsOk_iff, ArgIsPosition]; decide

/-- What most statements about INSERT assume, of A and of B. -/
theorem witness_InsertAddsThePosition :
    (running .w32 64 4 40 [0x80000005] [] []).params.Ok
    ∧ (∃ t, exec .insertA (running .w32 64 4 40 [0x80000005] [] []) = .next t ∧ t.status.code = .ok)
    ∧ ∃ t, exec .insertB (running .w64 64 4 1 [] [] []) = .next t ∧ t.status.code = .ok :=
  ⟨by decide, ⟨_, rfl, by decide⟩, _, rfl, by decide⟩

/-- The least DEPTH with room, and a position at each end of the range. -/
theorem witness_InsertWithRoomCompletes :
    (running .w32 4 4 0x3FFFFFFF [1] [] []).params.Ok ∧ ArgIsPosition (running .w32 4 4 0x3FFFFFFF [1] [] [])
    ∧ 1 ≤ (running .w32 4 4 0x3FFFFFFF [1] [] []).len .A ∧ (running .w32 4 4 0x3FFFFFFF [1] [] []).len .A + 2 ≤ 4
    ∧ WordsOk ((running .w32 4 4 0x3FFFFFFF [1] [] []).words .A) := by
  simp only [wordsOk_iff, ArgIsPosition]; decide

theorem witness_InsertKeepsCanonicalWords :
    Canonical ((running .w32 64 4 32 [0xC0000001, 0x7FFFFFFE, 0xC0000001] [] []).words .A)
    ∧ ∃ t, exec .insertA (running .w32 64 4 32 [0xC0000001, 0x7FFFFFFE, 0xC0000001] [] []) = .next t
      ∧ t.status.code = .ok := by
  refine ⟨?_, _, rfl, by decide⟩
  simp only [canonical_iff]; decide

/-- Position 40 in an all-ones run (V11). -/
theorem witness_InsertOfAHeldPositionChangesNoWord :
    (running .w32 64 4 40 [0xC0000002] [] []).params.Ok ∧ ArgIsPosition (running .w32 64 4 40 [0xC0000002] [] [])
    ∧ 1 ≤ (running .w32 64 4 40 [0xC0000002] [] []).len .A ∧ (running .w32 64 4 40 [0xC0000002] [] []).len .A ≤ 64
    ∧ Canonical ((running .w32 64 4 40 [0xC0000002] [] []).words .A)
    ∧ (running .w32 64 4 40 [0xC0000002] [] []).argPos ∈ Pos ((running .w32 64 4 40 [0xC0000002] [] []).words .A) := by
  refine ⟨by decide, by unfold ArgIsPosition; decide, by decide, by decide, by simp only [canonical_iff]; decide, ?_⟩
  exact ⟨1, 8, allOnes .w32, by decide +kernel, by decide, by decide, by decide +kernel⟩

/-- A literal between two runs (V1). -/
theorem witness_InsertSetsABitOfALiteral :
    let s := running .w32 64 4 126 [0x10, 0x80000003, 1] [] [];
    s.params.Ok ∧ ArgIsPosition s ∧ 1 ≤ s.len .A ∧ s.len .A ≤ 64 ∧ WordsOk (s.words .A)
    ∧ s.words .A = [0x10, 0x80000003] ++ 1 :: [] ∧ isRun (1 : Word .w32) = false
    ∧ totalUnits ([0x10, 0x80000003] : List (Word .w32)) + 1 = unitOf .w32 s.argPos
    ∧ (1 : Word .w32) ||| bitWord .w32 (bitOf .w32 s.argPos) ≠ allOnes .w32 := by
  simp only [wordsOk_iff, ArgIsPosition]; decide

/-- No neighbour (V1), one before (V11), one after, and both: with a sum of exactly MAXRUN, and one above it (V13). -/
theorem witness_InsertCollapsesAFullLiteral :
    (let s := running .w32 64 4 155 [0x10, 0x80000003, 0x3FFFFFFF] [] [];
      s.params.Ok ∧ ArgIsPosition s ∧ WordsOk (s.words .A) ∧ s.words .A = [0x10, 0x80000003] ++ 0x3FFFFFFF :: []
      ∧ totalUnits ([0x10, 0x80000003] : List (Word .w32)) + 1 = unitOf .w32 s.argPos
      ∧ (0x3FFFFFFF : Word .w32) ||| bitWord .w32 (bitOf .w32 s.argPos) = allOnes .w32)
    ∧ (let s := running .w32 64 4 63 [0xC0000002, 0x7FFFFFFE] [] [];
      s.words .A = [] ++ mkRun true 2 :: 0x7FFFFFFE :: [] ∧ 0 + 2 + 1 = unitOf .w32 s.argPos
      ∧ (0x7FFFFFFE : Word .w32) ||| bitWord .w32 (bitOf .w32 s.argPos) = allOnes .w32)
    ∧ (let s := running .w32 64 4 31 [0x3FFFFFFF, 0xC0000001] [] [];
      s.words .A = [] ++ 0x3FFFFFFF :: mkRun true 1 :: [] ∧ 0 + 1 = unitOf .w32 s.argPos
      ∧ (0x3FFFFFFF : Word .w32) ||| bitWord .w32 (bitOf .w32 s.argPos) = allOnes .w32)
    ∧ (let s := running .w32 64 4 32 [0xC0000001, 0x7FFFFFFE, 0xFFFFFFFD] [] [];
      s.words .A = [] ++ mkRun true 1 :: 0x7FFFFFFE :: mkRun true 0x3FFFFFFD :: []
      ∧ 0 + 1 + 1 = unitOf .w32 s.argPos ∧ 1 + 1 + 0x3FFFFFFD = maxRun .w32
      ∧ (0x7FFFFFFE : Word .w32) ||| bitWord .w32 (bitOf .w32 s.argPos) = allOnes .w32)
    ∧ (let s := running .w32 64 4 156 [0xC0000005, 0x7FFFFFFE, 0xFFFFFFFF] [] [];
      s.words .A = [] ++ mkRun true 5 :: 0x7FFFFFFE :: mkRun true 0x3FFFFFFF :: []
      ∧ 0 + 5 + 1 = unitOf .w32 s.argPos ∧ 0x3FFFFFFF ≤ maxRun .w32 ∧ maxRun .w32 < 5 + 1 + 0x3FFFFFFF) := by
  simp only [wordsOk_iff, ArgIsPosition]; decide

theorem witness_InsertInAnAllOnesRunChangesNoWord :
    let s := running .w32 64 4 62 [0xC0000002] [] [];
    s.params.Ok ∧ ArgIsPosition s ∧ 1 ≤ s.len .A ∧ s.len .A ≤ 64 ∧ WordsOk (s.words .A)
    ∧ s.words .A = [] ++ 0xC0000002 :: [] ∧ isRun (0xC0000002 : Word .w32) = true
    ∧ runOnes (0xC0000002 : Word .w32) = true ∧ 0 < unitOf .w32 s.argPos
    ∧ unitOf .w32 s.argPos ≤ 0 + runLen (0xC0000002 : Word .w32) := by
  simp only [wordsOk_iff, ArgIsPosition]; decide

/-- The first, an inner and the last unit of the run, and a run of one unit (V11). -/
theorem witness_InsertSplitsAnAllZeroRun :
    (let s := running .w32 64 4 1 [0x80000005] [] [];
      s.params.Ok ∧ ArgIsPosition s ∧ WordsOk (s.words .A) ∧ s.words .A = [] ++ 0x80000005 :: []
      ∧ isRun (0x80000005 : Word .w32) = true ∧ runOnes (0x80000005 : Word .w32) = false
      ∧ unitOf .w32 s.argPos = 0 + 0 + 1 ∧ 0 < runLen (0x80000005 : Word .w32))
    ∧ (unitOf .w32 (running .w32 64 4 40 [0x80000005] [] []).argPos = 0 + 1 + 1 ∧ 1 < runLen (0x80000005 : Word .w32))
    ∧ (unitOf .w32 (running .w32 64 4 155 [0x80000005] [] []).argPos = 0 + 4 + 1 ∧ 4 < runLen (0x80000005 : Word .w32))
    ∧ (unitOf .w32 (running .w32 64 4 20 [0x80000001] [] []).argPos = 0 + 0 + 1
      ∧ 0 < runLen (0x80000001 : Word .w32)) := by
  simp only [wordsOk_iff, ArgIsPosition]; decide

/-- No gap, a gap after a literal, and a gap after an all-zero run (V1, V11). -/
theorem witness_InsertAppends :
    (let s := running .w32 64 4 156 [0x10, 0x80000003, 0xC0000001] [] [];
      s.params.Ok ∧ ArgIsPosition s ∧ WordsOk (s.words .A)
      ∧ unitOf .w32 s.argPos = totalUnits (s.words .A) + 0 + 1)
    ∧ (let s := running .w32 64 4 125 [0x10] [] [];
      unitOf .w32 s.argPos = totalUnits (s.words .A) + 3 + 1
      ∧ ∀ v ∈ (s.words .A).getLast?, ¬ (isRun v = true ∧ runOnes v = false))
    ∧ (let s := running .w32 64 4 200 [1, 0x80000003] [] [];
      unitOf .w32 s.argPos = totalUnits (s.words .A) + 2 + 1 ∧ s.words .A = [1] ++ [mkRun false 3]) := by
  simp only [wordsOk_iff, ArgIsPosition]
  refine ⟨by decide, ⟨by decide, fun v hv => ?_⟩, by decide⟩
  have e : ((running .w32 64 4 125 [0x10] [] []).words .A).getLast? = some 0x10 := by decide
  rw [e] at hv
  cases hv
  decide

/-- V21: a bad length, and a malformed word where both lengths are right. -/
theorem witness_MergeChecksItsOperands :
    ¬ (1 ≤ ({ running .w32 64 5 0 [] [] [] with bufA := ⟨[(0, 0)], 0⟩ } : State).len .A)
    ∧ (let s := running .w32 64 5 0 [0x80000000] [] [];
      ((1 ≤ s.len .A ∧ s.len .A ≤ s.params.depth) ∧ (1 ≤ s.len .B ∧ s.len .B ≤ s.params.depth))
      ∧ ¬ (WordsOk (s.words .A) ∧ WordsOk (s.words .B))) := by
  simp only [wordsOk_iff]; decide

/-- V3. -/
theorem witness_MergeOrGivesTheUnion :
    let s := running .w32 64 5 0 [0xC0000020, 0xFF] [0x80000010, 8] [];
    s.params.Ok ∧ s.wellFormed .A = true ∧ s.wellFormed .B = true := by decide

/-- The smallest DEPTH, both operands full. -/
theorem witness_MergeAndGivesTheIntersection :
    let s := running .w64 2 6 0 [1] [0x8000000000000005] [];
    s.params.Ok ∧ s.wellFormed .A = true ∧ s.wellFormed .B = true := by decide

/-- V18: host-loaded operands that are not canonical. -/
theorem witness_MergeWordsFollowTheRules :
    let s := running .w32 64 5 0 [0x7FFFFFFE, 1] [1, 0xC0000001] []
    s.params.Ok ∧ s.wellFormed .A = true ∧ s.wellFormed .B = true := by decide

/-- An empty B beside a lone all-zero run and beside V1's A; an empty operand of an AND; and two swapped operands. -/
theorem witness_MergeWordIdentities :
    (let s := running .w32 64 5 0 [0x80000005] [] [];
      s.params.Ok ∧ s.wellFormed .A = true ∧ Canonical (s.words .A) ∧ s.len .B = 1 ∧ s.words .A = [0x80000005]
      ∧ isRun (0x80000005 : Word .w32) = true ∧ runOnes (0x80000005 : Word .w32) = false)
    ∧ (let s := running .w32 64 5 0 v1 [] [];
      s.params.Ok ∧ s.wellFormed .A = true ∧ Canonical (s.words .A) ∧ s.len .B = 1
      ∧ (s.words .A).length ≠ 1 ∧ s.wellFormed .B = true)
    ∧ (let s := running .w32 64 5 0 [1] [0x80000003, 0x40] [];
      s.wellFormed .A = true ∧ s.wellFormed .B = true
      ∧ (bitmap .w32 [0x80000003, 0x40]).len .A = s.len .B ∧ (bitmap .w32 [0x80000003, 0x40]).words .A = s.words .B
      ∧ (bitmap .w32 [1]).len .B = s.len .A ∧ (bitmap .w32 [1]).words .B = s.words .A
      ∧ AnswersBitmap .R s [1, 0x80000002, 0x40] (exec .mergeOr s)) := by
  refine ⟨by simp only [canonical_iff]; decide, by simp only [canonical_iff]; decide, ?_⟩
  exact ⟨by decide, by decide, by decide, rfl, by decide, rfl, _, rfl, by decide, by decide⟩

theorem witness_MergeKeepsCanonicalWords :
    let s := running .w32 64 5 0 v1 [0x10, 0x80000003, 0x02000000] [];
    s.params.Ok ∧ s.wellFormed .A = true ∧ s.wellFormed .B = true ∧ Canonical (s.words .A)
    ∧ Canonical (s.words .B) := by
  simp only [canonical_iff]; decide

end Sys2Proof.Tests
end

section
/-! SUPPORT. How the rule of each command can end, and that no step writes the parameters. -/

namespace Sys2Proof.Machine

/-- How the rule of a command that starts in `s` can end: in a fault, or with one of the four effects that R39 lists.
No rule writes anything but a buffer and RESULT. -/
inductive RuleEnd (s : State) : Except Code State → Prop where
  | fault {c : Code} (h : c ≠ .ok) : RuleEnd s (.error c)
  | nothing : RuleEnd s (.ok s)
  | result (v : Word s.params.width) : RuleEnd s (.ok (s.setResult v))
  | buffer (b : Buf) (x : Buffer s.params.width) : RuleEnd s (.ok (s.setBuf b x))
  | bitmap (b : Buf) (ws : List (Word s.params.width)) : RuleEnd s (.ok (s.storeBitmap b ws))

section
variable {s : State}

/-- A rule that never raises OK ends as `RuleEnd` says where its fault-free ends do. -/
theorem RuleEnd.of_ok {r : Except Code State} (hne : r ≠ .error .ok) (hok : ∀ u, r = .ok u → RuleEnd s (.ok u)) :
    RuleEnd s r := by
  cases r with
  | error c => exact .fault fun hc => hne (congrArg _ hc)
  | ok u => exact hok u rfl

theorem writeSlot_ruleEnd (b : Buf) (i : Nat) : RuleEnd s (writeSlot b i s) :=
  .of_ok (writeSlot_ne_ok b i s) fun _ h => (writeSlot_eq_ok h).2 ▸ .buffer b _

theorem readSlot_ruleEnd (b : Buf) (i : Nat) : RuleEnd s (readSlot b i s) :=
  .of_ok (readSlot_ne_ok b i s) fun _ h => (readSlot_eq_ok h).2 ▸ .result _

theorem moveResult_ruleEnd (d : Buf) : RuleEnd s (moveResult d s) :=
  .of_ok (moveResult_ne_ok d s) fun _ h => by
    obtain ⟨-, -, rfl⟩ := moveResult_eq_ok h
    exact .bitmap d _

theorem classifyPosition_ruleEnd (f : Nat → Nat) : RuleEnd s (classifyPosition f s) :=
  .of_ok (classifyPosition_ne_ok f s) fun _ h => (classifyPosition_eq_ok h).2 ▸ .result _

theorem insertPosition_ruleEnd (b : Buf) : RuleEnd s (insertPosition b s) :=
  .of_ok (insertPosition_ne_ok b s) fun _ h => by
    obtain ⟨-, -, -, -, rfl⟩ := insertPosition_eq_ok h
    exact .bitmap b _

theorem mergeBuffers_ruleEnd (op : MergeOp) : RuleEnd s (mergeBuffers op s) :=
  .of_ok (mergeBuffers_ne_ok op s) fun _ h => by
    obtain ⟨-, -, _, -, rfl⟩ := mergeBuffers_eq_ok h
    exact .bitmap .R _

end

/-- Every command is the completion of a rule that ends in one of the ways of `RuleEnd`. -/
theorem exec_eq_conclude (i : Instr) (s : State) : ∃ r, exec i s = s.conclude r ∧ RuleEnd s r := by
  cases i with
  | nop => exact ⟨_, rfl, .nothing⟩
  | clearA => exact ⟨_, rfl, .bitmap .A []⟩
  | clearB => exact ⟨_, rfl, .bitmap .B []⟩
  | clearR => exact ⟨_, rfl, .bitmap .R []⟩
  | writeWordA j => exact ⟨_, rfl, writeSlot_ruleEnd .A j⟩
  | writeWordB j => exact ⟨_, rfl, writeSlot_ruleEnd .B j⟩
  | readWordA j => exact ⟨_, rfl, readSlot_ruleEnd .A j⟩
  | readWordB j => exact ⟨_, rfl, readSlot_ruleEnd .B j⟩
  | readWordR j => exact ⟨_, rfl, readSlot_ruleEnd .R j⟩
  | insertA => exact ⟨_, rfl, insertPosition_ruleEnd .A⟩
  | insertB => exact ⟨_, rfl, insertPosition_ruleEnd .B⟩
  | mergeOr => exact ⟨_, rfl, mergeBuffers_ruleEnd .or⟩
  | mergeAnd => exact ⟨_, rfl, mergeBuffers_ruleEnd .and⟩
  | moveRA => exact ⟨_, rfl, moveResult_ruleEnd .A⟩
  | moveRB => exact ⟨_, rfl, moveResult_ruleEnd .B⟩
  | clsIsRun => exact ⟨_, rfl, .result _⟩
  | clsRunLen => exact ⟨_, rfl, .result _⟩
  | clsRunOnes => exact ⟨_, rfl, .result _⟩
  | clsMaxRun => exact ⟨_, rfl, .result _⟩
  | clsPosInWord => exact ⟨_, rfl, classifyPosition_ruleEnd _⟩
  | clsWordsNeeded => exact ⟨_, rfl, classifyPosition_ruleEnd _⟩
  | clsBase => exact ⟨_, rfl, .result _⟩

/-! ### The parameters, update by update -/

section
variable (s : State)

@[simp] theorem State.storeBitmap_params (b : Buf) (ws) : (s.storeBitmap b ws).params = s.params := rfl
@[simp] theorem State.takeTurn_params : s.takeTurn.params = s.params := rfl
@[simp] theorem State.record_params (e) : (s.record e).params = s.params := rfl
@[simp] theorem State.resetEvent_params : s.resetEvent.params = s.params := rfl

@[simp] theorem State.writeCmd_params (c) : (s.writeCmd c).params = s.params := by
  rw [State.writeCmd]
  split <;> rfl

@[simp] theorem State.writeReg_params (r : HostReg) (v) : (s.writeReg r v).params = s.params := by
  cases r with
  | cmd => exact s.writeCmd_params _
  | arg | result | status | cfg => rfl

end

theorem RuleEnd.params {s u : State} (h : RuleEnd s (.ok u)) : u.params = s.params := by
  cases h with
  | nothing => rfl
  | result v => exact s.setResult_params v
  | buffer b x => exact s.setBuf_params b x
  | bitmap b ws => exact s.storeBitmap_params b ws

theorem exec_params {i : Instr} {s t : State} (h : exec i s = .next t) : t.params = s.params := by
  obtain ⟨r, hr, hend⟩ := exec_eq_conclude i s
  obtain ⟨u, rfl, rfl⟩ | ⟨c, -, rfl⟩ := State.conclude_cases (hr ▸ h)
  · rw [State.complete_params, hend.params]
  · rw [State.complete_params]

theorem hostStep_params {s t : State} (h : hostStep s = .next t) : t.params = s.params := by
  obtain rfl | ⟨rest, r, v, e, rfl⟩ | ⟨rest, e, rfl⟩ | ⟨rest, -, rfl⟩ := hostStep_cases h
  · rfl
  · rw [State.record_params, State.writeReg_params]
  · rw [State.record_params]
  · rw [State.record_params, State.resetEvent_params]

/-- Settles O25, by the kinds of step: a turn of an idle engine, a command, an illegal command word, a turn of the
host. -/
theorem parametersNeverChange : Obligations.ParametersNeverChange := by
  intro s t h
  obtain ⟨-, rfl | ⟨i, hi⟩ | rfl | hh⟩ := step_cases h
  · exact s.takeTurn_params
  · exact (exec_params hi).trans s.takeTurn_params
  · rw [State.complete_params, State.takeTurn_params]
  · exact (hostStep_params hh).trans s.takeTurn_params

end Sys2Proof.Machine
end

section
/-! SUPPORT. The host's accesses to the registers, and the fields of STATUS and CFG as it reads them. -/

namespace Sys2Proof.Machine

open Sys2Proof.Config (Params)

/-! ### Register accesses -/

/-- The interface of R56 and R57: an access at a register's offset and of its width reaches that register. -/
theorem accessedReg_offset (p : Params) (r : HostReg) : accessedReg p (p.base + r.offset) (regBits p r) = some r := by
  have hat : regAt p (p.base + r.offset) = some r := by
    rw [regAt, if_neg (by omega), Nat.add_sub_cancel_left]
    cases r <;> rfl
  rw [accessedReg, hat]
  exact if_pos rfl

section
variable {s : State} {rest : List HostAction} (r : HostReg)

/-- The host's turn on a write of register `r` (R58). -/
theorem step_writeReg {v : BitVec 64} (hm : HostMoves s)
    (hh : s.host = .write (s.params.base + r.offset) (regBits s.params r) v :: rest) :
    step s = .next ((({ s with host := rest, schedule := s.schedule.tail } : State).writeReg r
      ((v.setWidth (regBits s.params r)).setWidth 64)).record
        (.wrote r ((v.setWidth (regBits s.params r)).setWidth 64))) := by
  have hh' : s.takeTurn.host = .write (s.params.base + r.offset) (regBits s.params r) v :: rest := hh
  rw [step_host hm, hostStep, hh']
  simp only [hostWrite, State.takeTurn_params, accessedReg_offset]
  rfl

/-- The host's turn on a read of register `r` (R58). -/
theorem step_readReg (hm : HostMoves s)
    (hh : s.host = .read (s.params.base + r.offset) (regBits s.params r) :: rest) :
    step s = .next { s with
      host := rest, schedule := s.schedule.tail, trace := s.trace ++ [.got r (s.readReg r)] } := by
  have hh' : s.takeTurn.host = .read (s.params.base + r.offset) (regBits s.params r) :: rest := hh
  rw [step_host hm, hostStep, hh']
  simp only [hostRead, State.takeTurn_params, accessedReg_offset]
  cases r <;> rfl

end

theorem bits_le_64 (wd : Width) : wd.bits ≤ 64 := by cases wd <;> decide

/-- The bus data of a register's width survives its passage through the 64-bit bus. -/
theorem setWidth_bus {n : Nat} (h : n ≤ 64) (v : BitVec 64) :
    ((v.setWidth n).setWidth 64).setWidth n = v.setWidth n := by
  rw [BitVec.setWidth_setWidth_of_le _ h, BitVec.setWidth_eq]

/-- Settles O11: a write reaches `State.writeCmd`, which accepts where the engine is idle and drops where it is busy;
a read of CMD returns 0. -/
theorem cmdWriteIsAcceptedOrDropped : Obligations.CmdWriteIsAcceptedOrDropped := by
  intro s v rest hm
  refine ⟨fun hh hb => ?_, fun hh hb => ?_, fun hh => step_readReg .cmd hm hh⟩
  · rw [step_writeReg .cmd hm hh, State.writeReg, State.writeCmd, if_neg (Bool.eq_false_iff.1 hb)]
    simp only [regBits, setWidth_bus (show 32 ≤ 64 by decide)]
    rfl
  · rw [step_writeReg .cmd hm hh, State.writeReg, State.writeCmd, if_pos hb]
    rfl

/-- Settles O12: ARG takes the bus data at its own width. -/
theorem argWriteChangesArgOnly : Obligations.ArgWriteChangesArgOnly := by
  intro s v rest hm hh
  refine ⟨(v.setWidth s.params.width.bits).setWidth 64, ?_⟩
  rw [step_writeReg .arg hm hh, State.writeReg]
  simp only [regBits, setWidth_bus (bits_le_64 _)]
  rfl

/-- Settles O13: each register is read at its row of R56. -/
theorem readsReturnTheRegister : Obligations.ReadsReturnTheRegister :=
  fun _ _ hm => ⟨step_readReg .arg hm, step_readReg .result hm, step_readReg .status hm, step_readReg .cfg hm⟩

/-- Settles O16: `State.writeReg` leaves the state as it is for each of the three registers. -/
theorem readOnlyRegistersIgnoreWrites : Obligations.ReadOnlyRegistersIgnoreWrites :=
  fun _ _ _ hm => ⟨fun hh => ⟨_, step_writeReg .result hm hh⟩, fun hh => ⟨_, step_writeReg .status hm hh⟩,
    fun hh => ⟨_, step_writeReg .cfg hm hh⟩⟩

/-! ### STATUS and CFG -/

/-- Settles O14: STATUS holds 8 codes and 3 flags, so its layout is checked code by code for all flags. -/
theorem statusWordLayout : Obligations.StatusWordLayout := by
  refine ⟨fun ⟨busy, err, ovr, code⟩ => ?_, by decide⟩
  revert busy err ovr
  cases code <;> decide

/-- CFG as a number: no field runs into the next one for legal parameters. -/
theorem cfgWord_toNat {p : Params} (h : p.Ok) : (cfgWord p).toNat = p.width.bits + 256 * p.depth := by
  have hb := bits_le_64 p.width
  obtain ⟨-, hd⟩ := h
  rw [cfgWord, BitVec.toNat_ofNat]
  omega

/-- Settles O15, from the value of CFG as a number. -/
theorem cfgWordLayout : Obligations.CfgWordLayout := by
  intro p h
  have hb := bits_le_64 p.width
  have hd : p.depth ≤ 32768 := h.2
  have hc := cfgWord_toNat h
  refine ⟨?_, ?_, BitVec.eq_of_toNat_eq ?_⟩
  all_goals
    simp only [BitVec.extractLsb'_toNat, hc, Nat.shiftRight_eq_div_pow, BitVec.ofNat_eq_ofNat, BitVec.toNat_ofNat]
    omega

end Sys2Proof.Machine
end

section
/-! SUPPORT. What each command writes, by its row of R39. -/

namespace Sys2Proof.Machine

/-- `s` after a command has completed with code `c`, RESULT set to `v` where `writesResult` and buffer `written` to
`x` where there is one, neither where `c` is a fault (R39, R209). -/
def State.afterWrites (s : State) (writesResult : Bool) (written : Option Buf) (v : Word s.params.width)
    (x : Buffer s.params.width) (c : Code) : State :=
  { s with
    result := if writesResult = true ∧ c = .ok then v else s.result
    bufA := if written = some .A ∧ c = .ok then x else s.bufA
    bufB := if written = some .B ∧ c = .ok then x else s.bufB
    bufR := if written = some .R ∧ c = .ok then x else s.bufR
    status := { busy := false, err := decide (c ≠ .ok), ovr := s.status.ovr, code := c }
    cmdLatch := 0
    argLatch := 0
    faultLog := if c = .ok then s.faultLog else s.faultLog ++ [c] }

section
variable {s : State}

theorem complete_eq_afterWrites (v x) : s.complete .ok = s.afterWrites false none v x .ok := rfl

theorem complete_setResult (v x) : (s.setResult v).complete .ok = s.afterWrites true none v x .ok := rfl

theorem complete_setBuf (b : Buf) (v x) : (s.setBuf b x).complete .ok = s.afterWrites false (some b) v x .ok := by
  cases b <;> rfl

theorem complete_storeBitmap (b : Buf) (ws : List (Word s.params.width)) :
    (s.storeBitmap b ws).complete .ok = s.afterWrites true (some b)
      (BitVec.ofNat s.params.width.bits (1 + ws.length)) ((s.buf b).store ws) .ok := by
  cases b <;> rfl

theorem complete_fault_eq_afterWrites {c : Code} (h : c ≠ .ok) (writesResult : Bool) (written : Option Buf) (v x) :
    s.complete c = s.afterWrites writesResult written v x c := by
  simp [State.complete, State.afterWrites, Status.finish, h]

/-- WRITE_WORD writes its own slot of its buffer and no other (R52, R123). -/
theorem writeSlot_afterWrites (b : Buf) (i : Nat) :
    ∃ v x c, s.conclude (writeSlot b i s) = .next (s.afterWrites false (some b) v x c)
      ∧ ∀ k, k ≠ i → x.read b k = (s.buf b).read b k := by
  have hread : ∀ k, k ≠ i → ((s.buf b).write i s.argLatch).read b k = (s.buf b).read b k :=
    fun k hk => (Buffer.read_write ..).trans (if_neg hk)
  rw [writeSlot]
  split
  · exact ⟨s.result, _, .ok, congrArg Host.Outcome.next (complete_setBuf b _ _), hread⟩
  · exact ⟨s.result, _, .index, congrArg Host.Outcome.next (complete_fault_eq_afterWrites (by decide) ..), hread⟩

end

/-- An outcome that writes RESULT where `writesResult`, and buffer `written` where there is one. -/
def AnswersWrites (s : State) (writesResult : Bool) (written : Option Buf)
    (o : Host.Outcome State Fault Refusal) : Prop :=
  ∃ v x c, o = .next (s.afterWrites writesResult written v x c)

section
variable {s : State}

/-- A rule that never raises OK writes what its fault-free ends write. -/
theorem conclude_answersWrites {writesResult : Bool} {written : Option Buf} {r : Except Code State}
    (hne : r ≠ .error .ok)
    (hok : ∀ u, r = .ok u → ∃ v x, u.complete .ok = s.afterWrites writesResult written v x .ok) :
    AnswersWrites s writesResult written (s.conclude r) := by
  cases r with
  | ok u =>
    obtain ⟨v, x, hu⟩ := hok u rfl
    exact ⟨v, x, .ok, congrArg _ hu⟩
  | error c =>
    have hc : c ≠ .ok := fun hc => hne (congrArg _ hc)
    exact ⟨s.result, s.bufR, c, congrArg _ (complete_fault_eq_afterWrites hc ..)⟩

theorem setResult_answersWrites (v : Word s.params.width) :
    AnswersWrites s true none (s.conclude (.ok (s.setResult v))) :=
  ⟨v, s.bufR, .ok, congrArg _ (complete_setResult v _)⟩

theorem clearBuffer_answersWrites (b : Buf) : AnswersWrites s true (some b) (s.conclude (clearBuffer b s)) :=
  ⟨_, _, .ok, congrArg _ (complete_storeBitmap b [])⟩

theorem writeSlot_answersWrites (b : Buf) (i : Nat) :
    AnswersWrites s false (some b) (s.conclude (writeSlot b i s)) := by
  obtain ⟨v, x, c, hc, -⟩ := writeSlot_afterWrites (s := s) b i
  exact ⟨v, x, c, hc⟩

theorem readSlot_answersWrites (b : Buf) (i : Nat) : AnswersWrites s true none (s.conclude (readSlot b i s)) :=
  conclude_answersWrites (readSlot_ne_ok b i s) fun _ h => by
    obtain ⟨-, rfl⟩ := readSlot_eq_ok h
    exact ⟨_, s.bufR, complete_setResult _ _⟩

theorem classifyPosition_answersWrites (f : Nat → Nat) :
    AnswersWrites s true none (s.conclude (classifyPosition f s)) :=
  conclude_answersWrites (classifyPosition_ne_ok f s) fun _ h => by
    obtain ⟨-, rfl⟩ := classifyPosition_eq_ok h
    exact ⟨_, s.bufR, complete_setResult _ _⟩

theorem insertPosition_answersWrites (b : Buf) : AnswersWrites s true (some b) (s.conclude (insertPosition b s)) :=
  conclude_answersWrites (insertPosition_ne_ok b s) fun _ h => by
    obtain ⟨-, -, -, -, rfl⟩ := insertPosition_eq_ok h
    exact ⟨_, _, complete_storeBitmap b _⟩

theorem moveResult_answersWrites (d : Buf) : AnswersWrites s true (some d) (s.conclude (moveResult d s)) :=
  conclude_answersWrites (moveResult_ne_ok d s) fun _ h => by
    obtain ⟨-, -, rfl⟩ := moveResult_eq_ok h
    exact ⟨_, _, complete_storeBitmap d _⟩

theorem mergeBuffers_answersWrites (op : MergeOp) :
    AnswersWrites s true (some .R) (s.conclude (mergeBuffers op s)) :=
  conclude_answersWrites (mergeBuffers_ne_ok op s) fun _ h => by
    obtain ⟨-, -, ws, -, rfl⟩ := mergeBuffers_eq_ok h
    exact ⟨_, _, complete_storeBitmap .R ws⟩

end

/-- Every command writes what its row of R39 names. -/
theorem exec_answersWrites (i : Instr) (s : State) :
    AnswersWrites s (resultWritten i) (bufferWritten i) (exec i s) := by
  cases i with
  | nop => exact ⟨s.result, s.bufR, .ok, congrArg Host.Outcome.next (complete_eq_afterWrites ..)⟩
  | clearA => exact clearBuffer_answersWrites .A
  | clearB => exact clearBuffer_answersWrites .B
  | clearR => exact clearBuffer_answersWrites .R
  | writeWordA j => exact writeSlot_answersWrites .A j
  | writeWordB j => exact writeSlot_answersWrites .B j
  | readWordA j => exact readSlot_answersWrites .A j
  | readWordB j => exact readSlot_answersWrites .B j
  | readWordR j => exact readSlot_answersWrites .R j
  | insertA => exact insertPosition_answersWrites .A
  | insertB => exact insertPosition_answersWrites .B
  | mergeOr => exact mergeBuffers_answersWrites .or
  | mergeAnd => exact mergeBuffers_answersWrites .and
  | moveRA => exact moveResult_answersWrites .A
  | moveRB => exact moveResult_answersWrites .B
  | clsIsRun | clsRunLen | clsRunOnes | clsMaxRun | clsBase => exact setResult_answersWrites _
  | clsPosInWord | clsWordsNeeded => exact classifyPosition_answersWrites _

/-- Settles O8: each command writes what its row names, and WRITE_WORD one slot of the buffer its row names. -/
theorem commandsWriteNothingElse : Obligations.CommandsWriteNothingElse := by
  intro i s
  by_cases hi : ∃ j, i = .writeWordA j ∨ i = .writeWordB j
  · obtain ⟨j, rfl | rfl⟩ := hi
    · obtain ⟨v, x, c, hc, hread⟩ := writeSlot_afterWrites (s := s) .A j
      refine ⟨v, x, c, hc, ?_⟩
      rintro b j' (⟨⟨⟩, rfl⟩ | ⟨⟨⟩, -⟩)
      exact hread
    · obtain ⟨v, x, c, hc, hread⟩ := writeSlot_afterWrites (s := s) .B j
      refine ⟨v, x, c, hc, ?_⟩
      rintro b j' (⟨⟨⟩, -⟩ | ⟨⟨⟩, rfl⟩)
      exact hread
  · obtain ⟨v, x, c, hc⟩ := exec_answersWrites i s
    refine ⟨v, x, c, hc, ?_⟩
    rintro b j (⟨rfl, -⟩ | ⟨rfl, -⟩)
    · exact absurd ⟨j, .inl rfl⟩ hi
    · exact absurd ⟨j, .inr rfl⟩ hi

end Sys2Proof.Machine
end

section
/-! SUPPORT. The invariant of the machine, its part about the buffers apart from STATUS. -/

namespace Sys2Proof.Machine

variable {wd : Width}

/-! ### The buffers -/

/-- What `Inv` says of the buffers: slots inside the slot spaces in canonical form (R51), R well-formed (R128). -/
def BuffersOk (s : State) : Prop := (∀ b, SlotsOk (s.depth b) (s.buf b)) ∧ s.wellFormed .R = true

theorem inv_iff (s : State) : Inv s ↔ BuffersOk s ∧ s.status.err = decide (s.status.code ≠ .ok) := by
  constructor
  · intro ⟨hA, hB, hR, herr, hwf⟩
    refine ⟨⟨fun b => ?_, hwf⟩, herr⟩
    cases b with
    | A => exact hA
    | B => exact hB
    | R => exact hR
  · intro ⟨⟨hslots, hwf⟩, herr⟩
    exact ⟨hslots .A, hslots .B, hslots .R, herr, hwf⟩

section
variable {s : State}

theorem State.one_le_depth (h : s.params.Ok) (b : Buf) : 1 ≤ s.depth b := by
  have h2 : 2 ≤ s.params.depth := h.1
  cases b <;> simp only [State.depth_A, State.depth_B, State.depth_R] <;> omega

theorem State.params_depth_le (s : State) (b : Buf) : s.params.depth ≤ s.depth b := by
  cases b <;> simp only [State.depth_A, State.depth_B, State.depth_R] <;> omega

/-- A buffer of length 1 has no words, so it is well-formed (R109). -/
theorem State.wellFormed_of_len_one {b : Buf} (h : s.len b = 1) (hd : 1 ≤ s.depth b) : s.wellFormed b = true := by
  have hw : s.words b = [] := List.eq_nil_of_length_eq_zero (by rw [s.length_words, h])
  rw [s.wellFormed_iff, h, hw]
  exact ⟨⟨le_rfl, hd⟩, .nil⟩

theorem State.wellFormed_setBuf_of_ne {b : Buf} (hb : b ≠ .R) (x : Buffer s.params.width) :
    (s.setBuf b x).wellFormed .R = s.wellFormed .R := by
  cases b with
  | A | B => rfl
  | R => exact absurd rfl hb

/-- The bitmap that a command stores in R is well-formed where its words are and it fits (R109). -/
theorem State.wellFormed_setBuf_store (hok : s.params.Ok) {ws : List (Word s.params.width)}
    (hl : 1 + ws.length ≤ s.depth .R) (hw : WordsOk ws) : (s.setBuf .R (s.bufR.store ws)).wellFormed .R = true := by
  have hlt : 1 + ws.length < 2 ^ s.params.width.bits := Nat.lt_of_le_of_lt hl (s.depth_lt hok .R)
  have hlen : (s.setBuf .R (s.bufR.store ws)).len .R = 1 + ws.length := Buffer.len_store .R _ ws hlt
  have hwords : (s.setBuf .R (s.bufR.store ws)).words .R = ws := Buffer.words_store .R _ ws hlt
  rw [State.wellFormed_iff, hlen, hwords]
  exact ⟨⟨Nat.le_add_right 1 _, hl⟩, hw⟩

theorem BuffersOk.setBuf (hs : BuffersOk s) {b : Buf} {x : Buffer s.params.width} (hx : SlotsOk (s.depth b) x)
    (hwf : (s.setBuf b x).wellFormed .R = true) : BuffersOk (s.setBuf b x) := by
  refine ⟨fun c => ?_, hwf⟩
  by_cases hc : c = b
  · subst hc
    rw [State.setBuf_buf_same]
    exact hx
  · rw [State.setBuf_buf_other s hc]
    exact hs.1 c

/-- A write of A or B leaves R as it is (R124). -/
theorem BuffersOk.setOperand (hs : BuffersOk s) {b : Buf} {x : Buffer s.params.width} (hb : b ≠ .R)
    (hx : SlotsOk (s.depth b) x) : BuffersOk (s.setBuf b x) :=
  hs.setBuf hx ((State.wellFormed_setBuf_of_ne hb x).trans hs.2)

theorem BuffersOk.setResult (hs : BuffersOk s) (v : Word s.params.width) : BuffersOk (s.setResult v) := hs

/-- `Store` of a bitmap that fits, and is well-formed where it goes into R. -/
theorem BuffersOk.storeBitmap (hs : BuffersOk s) (hok : s.params.Ok) {b : Buf} {ws : List (Word s.params.width)}
    (hl : 1 + ws.length ≤ s.depth b) (hw : b = .R → WordsOk ws) : BuffersOk (s.storeBitmap b ws) := by
  have hx : SlotsOk (s.depth b) ((s.buf b).store ws) := .store _ hl
  refine .setResult ?_ _
  by_cases hb : b = .R
  · subst hb
    exact hs.setBuf hx (State.wellFormed_setBuf_store hok hl (hw rfl))
  · exact hs.setOperand hb hx

/-! ### The commands' rules -/

/-- The slots of a well-formed buffer that hold its words, with slot 0 (R74). -/
theorem State.wellFormed_length {b : Buf} (h : s.wellFormed b = true) : 1 + (s.words b).length = s.len b := by
  obtain ⟨⟨hl, -⟩, -⟩ := (s.wellFormed_iff b).1 h
  rw [s.length_words]
  omega

section
variable {u : State} (hs : BuffersOk s)
include hs

theorem storeEmpty_keeps (hok : s.params.Ok) (b : Buf) : BuffersOk (s.storeBitmap b []) :=
  hs.storeBitmap hok (State.one_le_depth hok b) fun _ => .nil

theorem writeSlot_keeps {b : Buf} {i : Nat} (hb : b ≠ .R) (h : writeSlot b i s = .ok u) : BuffersOk u := by
  obtain ⟨hi, rfl⟩ := writeSlot_eq_ok h
  exact hs.setOperand hb ((hs.1 b).write hi _)

theorem readSlot_keeps {b : Buf} {i : Nat} (h : readSlot b i s = .ok u) : BuffersOk u := by
  obtain ⟨-, rfl⟩ := readSlot_eq_ok h
  exact hs.setResult _

theorem classifyPosition_keeps {f : Nat → Nat} (h : classifyPosition f s = .ok u) : BuffersOk u := by
  obtain ⟨-, rfl⟩ := classifyPosition_eq_ok h
  exact hs.setResult _

theorem insertPosition_keeps (hok : s.params.Ok) {b : Buf} (hb : b ≠ .R) (h : insertPosition b s = .ok u) :
    BuffersOk u := by
  obtain ⟨-, -, -, hl, rfl⟩ := insertPosition_eq_ok h
  exact hs.storeBitmap hok hl fun hR => absurd hR hb

theorem moveResult_keeps (hok : s.params.Ok) {d : Buf} (h : moveResult d s = .ok u) : BuffersOk u := by
  obtain ⟨hwf, hl, rfl⟩ := moveResult_eq_ok h
  refine hs.storeBitmap hok ?_ fun _ => ((s.wellFormed_iff .R).1 hwf).2
  rw [State.wellFormed_length hwf]
  exact hl.trans (s.params_depth_le d)

/-- A merge's output is well-formed and fits R (R188, R190). -/
theorem mergeBuffers_keeps (hok : s.params.Ok) {op : MergeOp} (h : mergeBuffers op s = .ok u) : BuffersOk u := by
  obtain ⟨hA, hB, ws, hws, rfl⟩ := mergeBuffers_eq_ok h
  have hlenA := State.wellFormed_length hA
  have hlenB := State.wellFormed_length hB
  obtain ⟨⟨-, hdA⟩, hwA⟩ := (s.wellFormed_iff .A).1 hA
  obtain ⟨⟨-, hdB⟩, hwB⟩ := (s.wellFormed_iff .B).1 hB
  obtain ⟨out, hout, hwf, hlen, -⟩ := mergeWords_spec op hwA hwB
  cases hws.symm.trans hout
  refine hs.storeBitmap hok ?_ fun _ => hwf
  rw [State.depth_A] at hdA
  rw [State.depth_B] at hdB
  rw [State.depth_R]
  omega

/-! ### Steps -/

/-- Completion sets ERR by the code (R25). -/
theorem BuffersOk.complete (c : Code) : Inv (s.complete c) := (inv_iff _).2 ⟨hs, rfl⟩

/-- A command keeps the invariant where the fault-free ends of its rule keep the buffers. -/
theorem conclude_keeps {t : State} {r : Except Code State} (hr : ∀ {u}, r = .ok u → BuffersOk u)
    (h : s.conclude r = .next t) : Inv t := by
  obtain ⟨u, hu, rfl⟩ | ⟨c, -, rfl⟩ := State.conclude_cases h
  · exact (hr hu).complete .ok
  · exact hs.complete c

theorem exec_keeps (hok : s.params.Ok) {t : State} {i : Instr} (h : exec i s = .next t) : Inv t := by
  cases i with
  | nop =>
    cases h
    exact hs.complete .ok
  | clearA | clearB | clearR =>
    cases h
    exact (storeEmpty_keeps hs hok _).complete .ok
  | writeWordA j | writeWordB j => exact conclude_keeps hs (writeSlot_keeps hs (by decide)) h
  | readWordA j | readWordB j | readWordR j => exact conclude_keeps hs (readSlot_keeps hs) h
  | insertA | insertB => exact conclude_keeps hs (insertPosition_keeps hs hok (by decide)) h
  | mergeOr | mergeAnd => exact conclude_keeps hs (mergeBuffers_keeps hs hok) h
  | moveRA | moveRB => exact conclude_keeps hs (moveResult_keeps hs hok) h
  | clsIsRun | clsRunLen | clsRunOnes | clsMaxRun | clsBase =>
    cases h
    exact (hs.setResult _).complete .ok
  | clsPosInWord | clsWordsNeeded => exact conclude_keeps hs (classifyPosition_keeps hs) h

end

/-- A host write reaches no buffer, and of STATUS only BUSY and OVR (R21, R58). -/
theorem Inv.writeReg (hs : Inv s) (r : HostReg) (v : BitVec 64) : Inv (s.writeReg r v) := by
  obtain ⟨hb, herr⟩ := (inv_iff s).1 hs
  cases r with
  | cmd =>
    rw [State.writeReg, State.writeCmd]
    split <;> exact (inv_iff _).2 ⟨hb, herr⟩
  | arg => exact (inv_iff _).2 ⟨hb, herr⟩
  | result | status | cfg => exact hs

/-- The model's own records of the host are no part of the invariant. -/
theorem Inv.withHost (hs : Inv s) (host : List HostAction) (schedule : List Turn) (trace : List HostEvent) :
    Inv { s with host := host, schedule := schedule, trace := trace } := (inv_iff _).2 ((inv_iff s).1 hs)

theorem State.resetEvent_buf (s : State) (b : Buf) : s.resetEvent.buf b = (s.buf b).store [] := by cases b <;> rfl

/-- The reset event leaves the empty bitmap in each buffer and STATUS = 0 (R230). -/
theorem Inv.resetEvent (hok : s.params.Ok) : Inv s.resetEvent := by
  have hd : ∀ b, 1 ≤ s.resetEvent.depth b := State.one_le_depth hok
  have hlen : s.resetEvent.len .R = 1 :=
    Buffer.len_store .R s.bufR [] (Nat.one_lt_two_pow (by cases s.params.width <;> decide))
  refine (inv_iff _).2 ⟨⟨fun b => ?_, State.wellFormed_of_len_one hlen (hd .R)⟩, rfl⟩
  rw [s.resetEvent_buf]
  exact .store _ (hd b)

theorem hostStep_keeps (hok : s.params.Ok) (hs : Inv s) {t : State} (h : hostStep s = .next t) : Inv t := by
  obtain rfl | ⟨rest, r, v, e, rfl⟩ | ⟨rest, e, rfl⟩ | ⟨rest, -, rfl⟩ := hostStep_cases h
  · exact hs
  · exact ((hs.withHost rest _ _).writeReg r v).withHost _ _ _
  · exact hs.withHost _ _ _
  · exact (Inv.resetEvent hok).withHost _ _ _

/-- Settles O23, by the kinds of step: a turn of an idle engine, a command, an illegal command word, a turn of the
host. -/
theorem everyStepKeepsTheInvariant : Obligations.EveryStepKeepsTheInvariant := by
  intro s t hs h
  have ht : Inv s.takeTurn := hs.withHost _ _ _
  have hb : BuffersOk s.takeTurn := ((inv_iff _).1 ht).1
  obtain ⟨hok, rfl | ⟨i, hi⟩ | rfl | hh⟩ := step_cases h
  · exact ht
  · exact exec_keeps hb hok hi
  · exact hb.complete .illegal
  · exact hostStep_keeps (s := s.takeTurn) hok ht hh

end

/-! ### After reset -/

theorem Buffer.read_reset_zero (b : Buf) : (Buffer.reset wd).read b 0 = 1 := rfl

/-- Settles O22: the values `State.resetOf` gives, slot 0 of each buffer by `Buffer.read_reset_zero`. -/
theorem resetStateValues : Obligations.ResetStateValues :=
  fun _ => ⟨rfl, rfl, rfl, Buffer.read_reset_zero .A, Buffer.read_reset_zero .B, Buffer.read_reset_zero .R, rfl⟩

theorem Buffer.len_reset (b : Buf) : (Buffer.reset wd).len b = 1 := by
  rw [Buffer.len, Buffer.read_reset_zero]
  cases wd <;> rfl

theorem SlotsOk.reset {depth : Nat} (h : 0 < depth) : SlotsOk depth (Buffer.reset wd) := by
  simpa [SlotsOk, Buffer.reset, Memory.wf] using h

theorem State.resetOf_buf (p : Config.Params) (b : Buf) : (State.resetOf p).buf b = Buffer.reset p.width := by
  cases b <;> rfl

/-- The state right after reset: each buffer lists slot 0 alone, and holds 1 in it (R40). -/
theorem inv_resetOf {p : Config.Params} (h : p.Ok) : Inv (State.resetOf p) := by
  have hd : ∀ b, 1 ≤ (State.resetOf p).depth b := State.one_le_depth h
  refine (inv_iff _).2 ⟨⟨fun b => ?_, State.wellFormed_of_len_one (Buffer.len_reset .R) (hd .R)⟩, rfl⟩
  rw [State.resetOf_buf]
  exact .reset (hd b)

/-- Settles O24: `State.reset` is `State.resetOf` of legal parameters. -/
theorem resetStateMeetsTheInvariant : Obligations.ResetStateMeetsTheInvariant :=
  ⟨fun _ => inv_resetOf, inv_resetOf (by decide)⟩

end Sys2Proof.Machine
end

section
/-! SUPPORT. What a turn of the host cannot do: reach past the registers of R56 and R57, or, short of the reset event,
change what only the engine writes (R52, R61). -/

namespace Sys2Proof.Machine

open Sys2Proof.Config (Params)

/-! ### The frame of a host turn -/

/-- A host write of a register reaches ARG, STATUS and the latch alone (R58). -/
theorem State.writeReg_frame (s : State) (r : HostReg) (v : BitVec 64) :
    ∃ (a : Word s.params.width) (st : Status) (c : BitVec 32) (l : Word s.params.width),
      s.writeReg r v = { s with arg := a, status := st, cmdLatch := c, argLatch := l } := by
  cases r with
  | cmd =>
    rw [State.writeReg, State.writeCmd]
    split <;> exact ⟨_, _, _, _, rfl⟩
  | arg | result | status | cfg => exact ⟨_, _, _, _, rfl⟩

/-- Settles O20, by the effects a performed host action can have: only a register write changes the block. -/
theorem hostActionsLeaveBuffersAndResult : Obligations.HostActionsLeaveBuffersAndResult := by
  intro s t hm hne h
  rw [step_host hm] at h
  obtain rfl | ⟨rest, r, v, e, rfl⟩ | ⟨rest, e, rfl⟩ | ⟨rest, hh, -⟩ := hostStep_cases h
  · exact ⟨_, _, _, _, _, _, _, rfl⟩
  · obtain ⟨a, st, c, l, hw⟩ := ({ s.takeTurn with host := rest } : State).writeReg_frame r v
    rw [hw]
    exact ⟨a, st, c, l, _, _, _, rfl⟩
  · exact ⟨_, _, _, _, _, _, _, rfl⟩
  · have hreset : s.host = .reset :: rest := hh
    exact absurd (congrArg List.head? hreset) hne

/-! ### Accesses outside the interface -/

section
variable {p : Params} {addr bits : Nat} {r : HostReg}

theorem regAt_eq_some (h : regAt p addr = some r) : addr = p.base + r.offset := by
  rw [regAt] at h
  split at h
  · cases h
  · split at h <;> cases h <;> rw [HostReg.offset] <;> omega

/-- An access reaches a register exactly where it is at that register's offset and of its width (R56, R57). -/
theorem accessedReg_eq_some_iff :
    accessedReg p addr bits = some r ↔ addr = p.base + r.offset ∧ bits = regBits p r := by
  refine ⟨fun h => ?_, fun ⟨ha, hb⟩ => ha ▸ hb ▸ accessedReg_offset p r⟩
  rw [accessedReg] at h
  split at h
  · cases h
  · rename_i hat
    split at h
    · rename_i hb
      cases h
      exact ⟨regAt_eq_some hat, hb⟩
    · cases h

end

section
variable {s : State} {addr bits : Nat} {rest : List HostAction}

/-- The host's turn on a write that reaches no register (R57). -/
theorem step_write_refused {v : BitVec 64} (hm : HostMoves s) (hh : s.host = .write addr bits v :: rest)
    (ha : accessedReg s.params addr bits = none) : step s = .refused .accessOutsideInterface := by
  have hh' : s.takeTurn.host = .write addr bits v :: rest := hh
  rw [step_host hm, hostStep, hh']
  simp only [hostWrite, State.takeTurn_params, ha]

/-- The host's turn on a read that reaches no register (R57). -/
theorem step_read_refused (hm : HostMoves s) (hh : s.host = .read addr bits :: rest)
    (ha : accessedReg s.params addr bits = none) : step s = .refused .accessOutsideInterface := by
  have hh' : s.takeTurn.host = .read addr bits :: rest := hh
  rw [step_host hm, hostStep, hh']
  simp only [hostRead, State.takeTurn_params, ha]

end

/-- Settles O17: an access that reached a register would stand in the list of R56 and R57. -/
theorem accessOutsideTheInterfaceIsRefused : Obligations.AccessOutsideTheInterfaceIsRefused := by
  intro s addr bits v rest hm hout hh
  have hnone : accessedReg s.params addr bits = none := Option.eq_none_iff_forall_ne_some.2 fun r hr => by
    refine hout (r.offset, regBits s.params r) ?_ (accessedReg_eq_some_iff.1 hr)
    cases r <;> simp [HostReg.offset, regBits]
  obtain hw | hr := hh
  · exact step_write_refused hm hw hnone
  · exact step_read_refused hm hr hnone

end Sys2Proof.Machine
end

section
/-! SUPPORT. The decoder and the encoder against the opcode map, the legal words, and the engine's turn on an illegal
one (R80 to R87). -/

namespace Sys2Proof.Machine

/-! ### The rows of the opcode map -/

/-- `opcodeRow` finds the row of every command (R84). -/
theorem opcodeRow_opcodeOf (i : Instr) : opcodeRow (opcodeOf i).1 (opcodeOf i).2 i.slot = some i := by
  cases i <;> rfl

theorem opAssigned_opcodeOf (i : Instr) : opAssigned (opcodeOf i).1 = true := by cases i <;> rfl

theorem opcodeOf_lt (i : Instr) : (opcodeOf i).1 < 256 ∧ (opcodeOf i).2 < 4 := by
  cases i <;> simp [opcodeOf]

/-- Only WRITE_WORD and READ_WORD carry a slot number (R82). -/
theorem takesSlot_or_slot_eq_zero (i : Instr) : takesSlot (opcodeOf i).1 = true ∨ i.slot = 0 := by
  cases i with
  | writeWordA | writeWordB | readWordA | readWordB | readWordR => exact .inl rfl
  | _ => exact .inr rfl

section
variable {op bsel idx : Nat} {i : Instr}

theorem takesSlot_iff : takesSlot op = true ↔ op = 2 ∨ op = 3 := by simp [takesSlot]

/-- The command in a row has that row's OP and BSEL, and the slot number where the row takes one (R82, R84). -/
theorem opcodeRow_eq_some (h : opcodeRow op bsel idx = some i) :
    opcodeOf i = (op, bsel) ∧ i.slot = if takesSlot op then idx else 0 := by
  unfold opcodeRow at h
  split at h <;> cases h <;> exact ⟨rfl, rfl⟩

/-- One command for each row of R84, those that take a slot number with `idx`. -/
def rowCommands (idx : Nat) : List Instr :=
  [.nop, .clearA, .clearB, .clearR, .writeWordA idx, .writeWordB idx, .readWordA idx, .readWordB idx, .readWordR idx,
    .insertA, .insertB, .mergeOr, .mergeAnd, .moveRA, .moveRB, .clsIsRun, .clsRunLen, .clsRunOnes, .clsMaxRun,
    .clsPosInWord, .clsWordsNeeded, .clsBase]

/-- Every command is the command of a row. -/
theorem mem_rowCommands_iff : i ∈ rowCommands idx ↔ (takesSlot (opcodeOf i).1 = true → i.slot = idx) := by
  cases i <;> simp [rowCommands, takesSlot, opcodeOf, Instr.slot]

end

/-! ### Decoding -/

section
variable {c : BitVec 32} {i : Instr}

/-- A word decodes to the command that has its OP, BSEL and IDX, where RSV is 0, and to no other (R85). -/
theorem decode_eq_ok_iff :
    decode c = .ok i ↔ opcodeOf i = (fieldOp c, fieldBsel c) ∧ fieldRsv c = 0 ∧ i.slot = fieldIdx c := by
  constructor
  · intro h
    rw [decode] at h
    split at h
    · cases h
    split at h
    · cases h
    rename_i hrsv
    split at h
    · cases h
    rename_i hrow
    obtain ⟨hop, hslot⟩ := opcodeRow_eq_some hrow
    split at h
    · rename_i hidx
      cases h
      rw [Bool.or_eq_true, beq_iff_eq] at hidx
      exact ⟨hop, not_not.1 hrsv, hslot.trans (ite_eq_left_iff.2 fun h => (hidx.resolve_left h).symm)⟩
    · cases h
  · rintro ⟨hop, hrsv, hslot⟩
    have hrow : opcodeRow (fieldOp c) (fieldBsel c) (fieldIdx c) = some i := by
      rw [← hslot]
      simpa only [hop] using opcodeRow_opcodeOf i
    have hassigned : opAssigned (fieldOp c) = true := by simpa only [hop] using opAssigned_opcodeOf i
    have hidx : takesSlot (fieldOp c) = true ∨ fieldIdx c = 0 := by
      simpa only [hop, hslot] using takesSlot_or_slot_eq_zero i
    simp [decode, hassigned, hrsv, hrow, hidx]

theorem fieldIdx_lt (c : BitVec 32) : fieldIdx c < 65536 := by
  have := c.isLt
  rw [fieldIdx]
  omega

/-- A command word is its four fields (R80). -/
theorem toNat_eq_fields (c : BitVec 32) :
    c.toNat = fieldOp c + fieldBsel c * 256 + fieldRsv c * 1024 + fieldIdx c * 65536 := by
  simp only [fieldOp, fieldBsel, fieldRsv, fieldIdx]
  omega

end

/-- Settles O1: the encoded word has the command's fields, so it decodes to the command. -/
theorem decodeOfEncodeIsTheCommand : Obligations.DecodeOfEncodeIsTheCommand := by
  intro i hw
  obtain ⟨hlt, hlt'⟩ := opcodeOf_lt i
  obtain ⟨hop, hrsv, hidx, -⟩ := Laws.FieldsLegal.of_opcode hlt hlt' (takesSlot_or_slot_eq_zero i) hw
  exact decode_eq_ok_iff.2 ⟨hop.symm, hrsv, hidx.symm⟩

/-- Settles O2: the word and the command have the same fields, and a word is its fields. -/
theorem encodeOfDecodeIsTheWord : Obligations.EncodeOfDecodeIsTheWord := by
  intro c i h
  obtain ⟨hop, hrsv, hslot⟩ := decode_eq_ok_iff.1 h
  have hc := toNat_eq_fields c
  refine ⟨decide_eq_true (hslot ▸ fieldIdx_lt c), BitVec.eq_of_toNat_eq ?_⟩
  rw [encode, hop, hslot, BitVec.toNat_ofNat]
  omega

/-! ### Legal words -/

section
variable (c : BitVec 32)

theorem toNat_extractOp : (c.extractLsb' 0 8).toNat = fieldOp c := by
  simp [fieldOp]

theorem toNat_extractBsel : (c.extractLsb' 8 2).toNat = fieldBsel c := by
  simp [fieldBsel, Nat.shiftRight_eq_div_pow]

theorem toNat_extractRsv : (c.extractLsb' 10 6).toNat = fieldRsv c := by
  simp [fieldRsv, Nat.shiftRight_eq_div_pow]

theorem toNat_extractIdx : (c.extractLsb' 16 16).toNat = fieldIdx c := by
  rw [BitVec.extractLsb'_toNat, Nat.shiftRight_eq_div_pow]
  exact Nat.mod_eq_of_lt (fieldIdx_lt c)

/-- The legal words as the decoder reads them: the fields are a row's, and a slot number stands only where it takes
one (R85). -/
theorem legalWord_iff_fields :
    LegalWord c ↔ (fieldOp c, fieldBsel c) ∈ (rowCommands (fieldIdx c)).map opcodeOf ∧ fieldRsv c = 0
      ∧ (takesSlot (fieldOp c) = true ∨ fieldIdx c = 0) := by
  rw [takesSlot_iff, or_assoc, ← toNat_extractOp, ← toNat_extractBsel, ← toNat_extractRsv, ← toNat_extractIdx]
  simp only [← BitVec.toNat_inj, LegalWord]
  exact Iff.rfl

/-- A word is legal where some command has its fields. -/
theorem legalWord_iff :
    LegalWord c ↔ ∃ i, opcodeOf i = (fieldOp c, fieldBsel c) ∧ fieldRsv c = 0 ∧ i.slot = fieldIdx c := by
  rw [legalWord_iff_fields, List.mem_map]
  constructor
  · rintro ⟨⟨i, hi, hop⟩, hrsv, htakes⟩
    refine ⟨i, hop, hrsv, ?_⟩
    have hslot := mem_rowCommands_iff.1 hi
    rw [hop] at hslot
    obtain ht | h0 := htakes
    · exact hslot ht
    · obtain ht | hs := takesSlot_or_slot_eq_zero i
      · exact hslot (hop ▸ ht)
      · exact hs.trans h0.symm
  · rintro ⟨i, hop, hrsv, hslot⟩
    refine ⟨⟨i, mem_rowCommands_iff.2 fun _ => hslot, hop⟩, hrsv, ?_⟩
    simpa only [hop, hslot] using takesSlot_or_slot_eq_zero i

end

/-- Settles O3: to decode and to be legal are both to have the fields of a command. -/
theorem decoderAcceptsExactlyTheLegalWords : Obligations.DecoderAcceptsExactlyTheLegalWords := by
  intro c
  simp only [decode_eq_ok_iff, legalWord_iff]

/-- Settles O4, word by word of R94. -/
theorem specExampleWordsDecode : Obligations.SpecExampleWordsDecode := by
  unfold Obligations.SpecExampleWordsDecode
  decide

/-- Settles O6: the decoder answers an error for the word, so the engine's turn ends in ILLEGAL. -/
theorem illegalWordFaultsAndDoesNothing : Obligations.IllegalWordFaultsAndDoesNothing := by
  intro s hm hillegal
  rw [step_engine hm]
  cases hd : decode s.cmdLatch with
  | ok i => exact absurd ((decoderAcceptsExactlyTheLegalWords _).1 ⟨i, hd⟩) hillegal
  | error e => exact s.takeTurn.conclude_error (by decide)

end Sys2Proof.Machine
end

section
/-! SUPPORT. The end of the `wait` loop under every schedule (R93, R236). -/

namespace Sys2Proof.Machine

section
variable {s : State} {rest : List HostAction}

/-- Whose turn it is: the host's, the engine's on an accepted command, or that of an idle engine. -/
theorem turn_cases (hok : s.params.Ok) :
    HostMoves s ∨ EngineMoves s ∨ s.schedule.head? = some .engine ∧ s.status.busy = false := by
  by_cases hhost : s.schedule.head? = some .host
  · exact .inl ⟨hok, .inl hhost⟩
  by_cases hb : s.status.busy = true
  · exact .inr (.inl ⟨hok, hb, hhost⟩)
  have hidle := Bool.eq_false_iff.2 hb
  match hq : s.schedule with
  | [] => exact .inl ⟨hok, .inr ⟨hq, hidle⟩⟩
  | .host :: q => exact absurd (congrArg List.head? hq) hhost
  | .engine :: q => exact .inr (.inr ⟨rfl, hidle⟩)

/-- A turn given to an idle engine changes nothing but the schedule. -/
theorem step_idle (hok : s.params.Ok) (hq : s.schedule.head? = some .engine) (hb : s.status.busy = false) :
    step s = .next s.takeTurn := by
  have ht : s.turn = .engine := by
    obtain ⟨q, hq⟩ := List.head?_eq_some_iff.1 hq
    rw [State.turn, hq]
  have hb' : s.takeTurn.status.busy = false := hb
  rw [step, if_pos hok, ht]
  simp [engineStep, hb']

/-- A command's completion leaves the engine idle and the host where it was (R25, R39). -/
theorem exec_idle (i : Instr) (s : State) :
    ∃ t, exec i s = .next t ∧ t.status.busy = false ∧ t.params = s.params ∧ t.host = s.host
      ∧ t.schedule = s.schedule := by
  obtain ⟨v, x, c, h⟩ := exec_answersWrites i s
  exact ⟨_, h, rfl, rfl, rfl, rfl⟩

/-- The engine's turn on an accepted command, legal or not, leaves the engine idle and the host where it was (R236). -/
theorem step_engine_idle (hm : EngineMoves s) :
    ∃ t, step s = .next t ∧ t.status.busy = false ∧ t.params = s.params ∧ t.host = s.host
      ∧ t.schedule = s.schedule.tail := by
  rw [step_engine hm]
  cases decode s.cmdLatch with
  | ok i => exact exec_idle i s.takeTurn
  | error e => exact ⟨_, rfl, rfl, rfl, rfl, rfl⟩

/-- The host's turn at a `wait` (R93). -/
theorem step_wait_host (hm : HostMoves s) (hh : s.host = .wait :: rest) :
    step s = .next { s with
      host := if s.status.busy then .wait :: rest else rest
      schedule := s.schedule.tail
      trace := s.trace ++ [.got .status ((statusWord s.status).setWidth 64)] } := by
  have hh' : s.takeTurn.host = .wait :: rest := hh
  rw [step_host hm, hostStep, hh']
  rfl

/-- One step with the host at a `wait`: it leaves the loop with the engine idle, or it uses up one turn of the schedule
and stays; with no turn left, it stays only where the engine's turn has left it idle. -/
theorem step_wait (hok : s.params.Ok) (hh : s.host = .wait :: rest) :
    ∃ t, step s = .next t ∧ (t.host = rest ∧ t.status.busy = false
      ∨ t.params = s.params ∧ t.host = .wait :: rest ∧ t.schedule = s.schedule.tail
        ∧ (s.schedule = [] → t.status.busy = false)) := by
  obtain hm | hm | ⟨hq, hb⟩ := turn_cases hok
  · refine ⟨_, step_wait_host hm hh, ?_⟩
    by_cases hb : s.status.busy = true
    · refine .inr ⟨rfl, if_pos hb, rfl, fun hq => ?_⟩
      simp [HostMoves, hq, hb] at hm
    · exact .inl ⟨if_neg hb, Bool.eq_false_iff.2 hb⟩
  · obtain ⟨t, ht, hb, hp, hhost, hsched⟩ := step_engine_idle hm
    exact ⟨t, ht, .inr ⟨hp, hhost.trans hh, hsched, fun _ => hb⟩⟩
  · exact ⟨_, step_idle hok hq hb, .inr ⟨rfl, hh, rfl, fun h => by simp [h] at hq⟩⟩

/-- The host's turn at a `wait` ends the loop where the engine is idle. -/
theorem step_wait_of_idle (hm : HostMoves s) (hh : s.host = .wait :: rest) (hb : s.status.busy = false) :
    ∃ t, step s = .next t ∧ t.host = rest ∧ t.status.busy = false :=
  ⟨_, step_wait_host hm hh, if_neg (Bool.eq_false_iff.1 hb), hb⟩

/-- The `wait` loop ends, by induction on the turns left on the schedule. -/
theorem run_wait (hok : s.params.Ok) (hh : s.host = .wait :: rest) :
    ∃ (n : Nat) (u : State), n ≤ s.schedule.length + 2 ∧ Host.Core.run Sys2Proof.core n s = .next u
      ∧ u.host = rest ∧ u.status.busy = false := by
  induction hq : s.schedule generalizing s with
  | nil =>
    obtain ⟨t, ht, hdone | ⟨hp, hhost, hsched, hstay⟩⟩ := step_wait hok hh
    · exact ⟨1, t, Nat.one_le_ofNat, run_succ ht 0, hdone⟩
    · have hidle := hstay hq
      have hm : HostMoves t := ⟨hp ▸ hok, .inr ⟨by rw [hsched, hq, List.tail_nil], hidle⟩⟩
      obtain ⟨u, hu, hdone⟩ := step_wait_of_idle hm hhost hidle
      exact ⟨2, u, le_rfl, (run_succ ht 1).trans (run_succ hu 0), hdone⟩
  | cons _ q ih =>
    obtain ⟨t, ht, hdone | ⟨hp, hhost, hsched, -⟩⟩ := step_wait hok hh
    · exact ⟨1, t, Nat.le_add_left .., run_succ ht 0, hdone⟩
    · obtain ⟨n, u, hn, hrun, hdone⟩ := ih (hp ▸ hok) hhost (by rw [hsched, hq, List.tail_cons])
      refine ⟨n + 1, u, ?_, (run_succ ht n).trans hrun, hdone⟩
      rw [List.length_cons]
      omega

end

/-- Settles O19: one turn by `step_wait_host`, the loop by `run_wait`. -/
theorem waitReadsStatusUntilIdle : Obligations.WaitReadsStatusUntilIdle :=
  fun _ _ hh => ⟨fun hm => step_wait_host hm hh, fun hok => run_wait hok hh⟩

end Sys2Proof.Machine
end

section
/-! SUPPORT. The classifier's commands: the fields of the latched word, and what the position forms answer (R101 to
R108). -/

namespace Sys2Proof.Machine

variable {wd : Width}

/-! ### The fields of a word, as R101 to R103 spell them -/

theorem isRun_eq_msb (w : Word wd) : isRun w = w.msb := w.msb_eq_getLsbD_last.symm

/-- The run length is the word under `wordcount_mask` (R102). -/
theorem ofNat_runLen (w : Word wd) :
    BitVec.ofNat wd.bits (runLen w) = w &&& BitVec.ofNat wd.bits (2 ^ (wd.bits - 2) - 1) := by
  have hlt : 2 ^ (wd.bits - 2) - 1 < 2 ^ wd.bits := by cases wd <;> decide
  have hlen : runLen w < 2 ^ wd.bits := Nat.lt_of_le_of_lt (Nat.mod_le _ _) w.isLt
  apply BitVec.eq_of_toNat_eq
  rw [BitVec.toNat_and, BitVec.toNat_ofNat, BitVec.toNat_ofNat, Nat.mod_eq_of_lt hlt, Nat.mod_eq_of_lt hlen,
    Nat.and_two_pow_sub_one_eq_mod, runLen]

theorem fillFlag_eq_twoPow (wd : Width) : fillFlag wd = BitVec.twoPow wd.bits (wd.bits - 2) := by cases wd <;> rfl

theorem fillFlag_ne_zero (wd : Width) : fillFlag wd ≠ 0 := by cases wd <;> decide

/-- The fill flag is the test of the word against `wordcount_mask + 1` (R103). -/
theorem runOnes_iff (w : Word wd) : runOnes w = true ↔ w &&& fillFlag wd ≠ 0 := by
  have hne := fillFlag_ne_zero wd
  rw [fillFlag_eq_twoPow] at hne ⊢
  rw [BitVec.and_twoPow, runOnes]
  split <;> simp_all

/-! ### Answering with RESULT -/

section
variable {s : State}

/-- The end of a classifier: RESULT takes its value and the command completes. -/
theorem conclude_setResult {v w : Word s.params.width} (h : v = w) :
    s.conclude (.ok (s.setResult v)) = .next { s with result := w }.afterOk := by
  subst h
  rfl

theorem argPos_cast (h : ArgIsPosition s) : (s.argPos : Int) = s.argLatch.toInt :=
  Int.toNat_of_nonneg (Int.le_trans Int.one_nonneg h.1)

theorem maxPos_lt_two_pow (wd : Width) : maxPos wd < 2 ^ wd.bits := by cases wd <;> decide

/-- BASE as an integer, in the form `W - 1` that the statements use. -/
theorem cast_base (wd : Width) : (base wd : Int) = wd.bits - 1 := by cases wd <;> rfl

/-- A classifier of positions on a valid position, for a value that fits a word (R105, R106). -/
theorem classifyPosition_valid {f : Nat → Nat} (h : ArgIsPosition s) (hf : f s.argPos < 2 ^ s.params.width.bits) :
    ∃ v : Word s.params.width, s.conclude (classifyPosition f s) = .next { s with result := v }.afterOk
      ∧ v.toNat = f s.argPos := by
  refine ⟨BitVec.ofNat _ (f s.argPos), ?_, Nat.mod_eq_of_lt hf⟩
  rw [classifyPosition]
  simp only [(validPos_iff s).2 h]
  rfl

/-- A classifier of positions on any other operand (R105, R106). -/
theorem classifyPosition_invalid (f : Nat → Nat) (h : ¬ ArgIsPosition s) :
    s.conclude (classifyPosition f s) = .next (s.afterFault .invalidArg) := by
  rw [classifyPosition]
  simp only [mt (validPos_iff s).1 h]
  exact s.conclude_error (by decide)

end

/-- A unit number never passes its position. -/
theorem unitOf_le_self {p : Nat} (h : 1 ≤ p) : unitOf wd p ≤ p := by
  obtain ⟨hu, he⟩ := unit_bit wd h
  have hle := Nat.le_mul_of_pos_right (unitOf wd p - 1) (base_pos wd)
  omega

/-- `unitOf` is the ceiling: `p` lies past the units before its own and not past its own (R106). -/
theorem unitOf_bounds {p : Nat} (h : 1 ≤ p) :
    p ≤ unitOf wd p * base wd ∧ (unitOf wd p - 1) * base wd < p := by
  obtain ⟨hu, he⟩ := unit_bit wd h
  have hbit := bitOf_lt wd p
  have hmul : unitOf wd p * base wd = (unitOf wd p - 1) * base wd + base wd := by
    rw [← Nat.succ_mul, Nat.succ_eq_add_one, Nat.sub_add_cancel hu]
  omega

/-! ### The commands -/

/-- Settles O34: the run flag is the top bit. -/
theorem clsIsRunGivesTheTopBit : Obligations.ClsIsRunGivesTheTopBit :=
  ⟨rfl, fun s => conclude_setResult (by rw [ofBit, isRun_eq_msb])⟩

/-- Settles O35, by `ofNat_runLen`. -/
theorem clsRunLenGivesTheMaskedWord : Obligations.ClsRunLenGivesTheMaskedWord :=
  ⟨rfl, fun s => conclude_setResult (ofNat_runLen s.argLatch)⟩

/-- Settles O36, by `runOnes_iff`. -/
theorem clsRunOnesGivesBitWMinus2 : Obligations.ClsRunOnesGivesBitWMinus2 :=
  ⟨rfl, fun s => conclude_setResult (if_congr (runOnes_iff s.argLatch) rfl rfl)⟩

/-- Settles O37: BASE - 1 is W - 2. -/
theorem clsMaxRunGivesMaxRun : Obligations.ClsMaxRunGivesMaxRun :=
  ⟨rfl, fun s => conclude_setResult (congrArg _ (maxPos_eq_maxRun s.params.width).symm)⟩

/-- Settles O38: the offset is at most BASE, so RESULT holds it whole. -/
theorem clsPosInWordGivesTheOffset : Obligations.ClsPosInWordGivesTheOffset := by
  refine ⟨rfl, fun s => ⟨fun h => ?_, classifyPosition_invalid _⟩⟩
  have hmod : (s.argPos - 1) % base s.params.width < base s.params.width := bitOf_lt _ _
  have hfits : posInWord s.params.width s.argPos < 2 ^ s.params.width.bits :=
    calc posInWord s.params.width s.argPos ≤ base s.params.width := hmod
      _ < s.params.width.bits := base_lt_bits _
      _ < 2 ^ s.params.width.bits := Nat.lt_two_pow_self
  obtain ⟨v, hv, hval⟩ := classifyPosition_valid h hfits
  refine ⟨v, hv, ?_, ?_⟩
  · rw [hval, posInWord, ← cast_base, ← argPos_cast h, Nat.cast_succ, Int.natCast_mod,
      Nat.cast_sub (argPos_bounds h).1, Nat.cast_one]
  · rw [hval, posInWord, ← base_eq]
    omega

/-- Settles O39: the unit number is at most the position, so RESULT holds it whole. -/
theorem clsWordsNeededGivesTheUnit : Obligations.ClsWordsNeededGivesTheUnit := by
  refine ⟨rfl, fun s => ⟨fun h => ?_, classifyPosition_invalid _⟩⟩
  obtain ⟨hpos, hmax⟩ := argPos_bounds h
  have hfits : unitOf s.params.width s.argPos < 2 ^ s.params.width.bits :=
    calc unitOf s.params.width s.argPos ≤ s.argPos := unitOf_le_self hpos
      _ ≤ maxPos s.params.width := hmax
      _ < 2 ^ s.params.width.bits := maxPos_lt_two_pow _
  obtain ⟨v, hv, hval⟩ := classifyPosition_valid h hfits
  obtain ⟨hle, hlt⟩ := unitOf_bounds (wd := s.params.width) hpos
  have hunit := (unit_bit s.params.width hpos).1
  refine ⟨v, hv, ?_⟩
  rw [hval, ← cast_base, ← argPos_cast h]
  zify [hunit] at hle hlt
  exact ⟨hle, hlt⟩

/-- Settles O40: BASE is W - 1. -/
theorem clsBaseGivesWMinus1 : Obligations.ClsBaseGivesWMinus1 :=
  ⟨rfl, fun s => conclude_setResult (congrArg _ (base_eq s.params.width))⟩

end Sys2Proof.Machine
end

section
/-! SUPPORT. The number of positions of a word sequence (R113), counted along its unit stream. -/

namespace Sys2Proof.Machine

variable {wd : Width}

/-! ### The bits of a unit stream -/

/-- Bit `n` (from 0) of a unit stream, BASE bits a unit: position `n + 1` (R111). -/
def streamBit (us : List (Word wd)) (n : Nat) : Bool := unitBit us (n / base wd) (n % base wd)

section
variable (u : Word wd) (us : List (Word wd))

theorem streamBit_cons_of_lt {n : Nat} (h : n < base wd) : streamBit (u :: us) n = u.getLsbD n := by
  rw [streamBit, Nat.div_eq_of_lt h, Nat.mod_eq_of_lt h]
  rfl

theorem streamBit_cons_base_add (n : Nat) : streamBit (u :: us) (base wd + n) = streamBit us n := by
  rw [streamBit, Nat.add_mod_left, Nat.add_div_left _ (base_pos wd)]
  rfl

/-- No bit is set past the end of the stream. -/
theorem lt_of_streamBit {n : Nat} (h : streamBit us n = true) : n < us.length * base wd := by
  rw [streamBit, unitBit] at h
  split at h
  · rename_i hu
    exact (Nat.div_lt_iff_lt_mul (base_pos wd)).1 (List.getElem?_eq_some_iff.1 hu).1
  · cases h

theorem popcount_eq_count : popcount u = Nat.count (fun k => u.getLsbD k) (base wd) := by
  rw [popcount, Nat.count, List.countP_eq_length_filter]
  simp only [Bool.decide_eq_true]

/-- The set bits of a stream are those of its units. -/
theorem count_streamBit :
    Nat.count (fun n => streamBit us n) (us.length * base wd) = (us.map popcount).sum := by
  induction us with
  | nil => simp
  | cons u us ih =>
    have hfirst : Nat.count (fun n => streamBit (u :: us) n) (base wd) = popcount u := by
      rw [popcount_eq_count]
      exact List.countP_congr fun n hn => by simp only [streamBit_cons_of_lt u us (List.mem_range.1 hn)]
    rw [List.length_cons, Nat.succ_mul, Nat.add_comm, Nat.count_add, hfirst, List.map_cons, List.sum_cons]
    simp only [streamBit_cons_base_add, ih]

end

/-! ### The units of a word -/

theorem popcount_fillWord (f : Bool) : popcount (fillWord wd f) = if f then base wd else 0 := by
  rw [popcount_eq_count]
  cases f
  · simp [fillWord_getLsbD]
  · rw [if_pos rfl, Nat.count_iff_forall]
    intro k hk
    simp [fillWord_getLsbD, hk]

/-- What a word adds to the cardinality: its popcount, or `run_length * BASE` where it is an all-ones run (R113). -/
theorem sum_popcount_wordUnits (w : Word wd) :
    ((wordUnits w).map popcount).sum
      = if isRun w then (if runOnes w then runLen w * base wd else 0) else popcount w := by
  cases hr : isRun w with
  | false => simp [wordUnits_literal hr]
  | true =>
    rw [wordUnits_run hr, List.map_replicate, List.sum_replicate, popcount_fillWord]
    cases runOnes w <;> simp

theorem count_eq_sum_popcount_units (ws : List (Word wd)) : count ws = ((units ws).map popcount).sum := by
  induction ws with
  | nil => rfl
  | cons w ws ih =>
    rw [units_cons, List.map_append, List.sum_append, sum_popcount_wordUnits, ← ih]
    rfl

/-! ### The position set -/

/-- The positions as a finite set: one past each set bit of the unit stream. -/
def posFinset (ws : List (Word wd)) : Finset Nat :=
  ((Finset.range ((units ws).length * base wd)).filter fun n => streamBit (units ws) n).map (addRightEmbedding 1)

theorem coe_posFinset (ws : List (Word wd)) : (posFinset ws : Set Nat) = Pos ws := by
  ext p
  have hbit : p ∈ Pos ws ↔ 1 ≤ p ∧ streamBit (units ws) (p - 1) = true := mem_Pos ws p
  simp only [posFinset, Finset.mem_coe, Finset.mem_map, Finset.mem_filter, Finset.mem_range, addRightEmbedding_apply,
    hbit]
  constructor
  · rintro ⟨n, ⟨-, hn⟩, rfl⟩
    exact ⟨Nat.le_add_left .., hn⟩
  · rintro ⟨hp, hn⟩
    exact ⟨p - 1, ⟨lt_of_streamBit _ hn, hn⟩, Nat.sub_add_cancel hp⟩

theorem card_posFinset (ws : List (Word wd)) : (posFinset ws).card = count ws := by
  rw [posFinset, Finset.card_map, ← Nat.count_eq_card_filter_range, count_streamBit, count_eq_sum_popcount_units]

/-- Settles O57: the position set is the finite set of the stream's set bits, counted unit by unit. -/
theorem countIsTheNumberOfPositions : Obligations.CountIsTheNumberOfPositions := by
  intro wd ws
  rw [← coe_posFinset]
  exact ⟨(posFinset ws).finite_toSet, (Set.ncard_coe_finset _).trans (card_posFinset ws)⟩

end Sys2Proof.Machine
end

section
/-! SUPPORT. The commands of 41_buffer_access.md: NOP, CLEAR, WRITE_WORD, READ_WORD and MOVE_R, and which commands leave
R as it is (R120 to R128). -/

namespace Sys2Proof.Machine

variable {s : State}

/-! ### Who writes R -/

/-- The rows of R39 that write R. -/
theorem bufferWritten_eq_R {i : Instr} (h : bufferWritten i = some .R) :
    i = .mergeOr ∨ i = .mergeAnd ∨ i = .clearR := by
  cases i with
  | clearR | mergeOr | mergeAnd => simp
  | _ => cases h

/-- A command that writes A, B or no buffer leaves R as it is (R124). -/
theorem State.afterWrites_of_ne_R {writesResult : Bool} {written : Option Buf} {v x c} (h : written ≠ some .R) :
    s.afterWrites writesResult written v x c
      = { s.afterWrites writesResult written v x c with bufR := s.bufR } := by
  simp only [State.afterWrites, h, false_and, if_false]

/-- Settles O10: by its row of R39 the command writes another buffer or none. -/
theorem otherCommandsLeaveR : Obligations.OtherCommandsLeaveR := by
  intro i s hor hand hclear
  obtain ⟨v, x, c, h⟩ := exec_answersWrites i s
  have hne : bufferWritten i ≠ some .R := fun hR => by simpa [hor, hand, hclear] using bufferWritten_eq_R hR
  rw [h, State.afterWrites_of_ne_R hne]
  exact ⟨_, _, _, _, _, rfl⟩

/-! ### NOP and CLEAR -/

/-- Settles O28: NOP's rule ends where it starts. -/
theorem nopOnlyCompletes : Obligations.NopOnlyCompletes := ⟨rfl, fun s => s.conclude_ok s⟩

/-- CLEAR stores the empty bitmap, whose length 1 fits a word (R121). -/
theorem clearBuffer_answers (b : Buf) (s : State) : AnswersBitmap b s [] (s.conclude (clearBuffer b s)) :=
  answers_storeBitmap b s [] (by cases s.params.width <;> decide)

/-- Settles O29, by `clearBuffer_answers`. -/
theorem clearLeavesTheEmptyBitmap : Obligations.ClearLeavesTheEmptyBitmap :=
  ⟨⟨rfl, rfl, rfl⟩, fun s => ⟨clearBuffer_answers .A s, clearBuffer_answers .B s, clearBuffer_answers .R s⟩⟩

/-! ### WRITE_WORD and READ_WORD -/

section
variable {b : Buf} {i : Nat}

theorem writeSlot_of_lt (h : i < s.depth b) : writeSlot b i s = .ok (s.setBuf b ((s.buf b).write i s.argLatch)) :=
  if_pos h

theorem writeSlot_of_le (h : s.depth b ≤ i) : writeSlot b i s = .error .index := if_neg h.not_gt

theorem readSlot_of_lt (h : i < s.depth b) : readSlot b i s = .ok (s.setResult ((s.buf b).read b i)) := if_pos h

theorem readSlot_of_le (h : s.depth b ≤ i) : readSlot b i s = .error .index := if_neg h.not_gt

/-- R30: only R has twice the slots. -/
theorem State.depth_eq_ite (s : State) (b : Buf) :
    s.depth b = if b = .R then 2 * s.params.depth else s.params.depth := by
  cases b <;> rfl

end

/-- The command word given by the fields of R80 decodes to its command. -/
theorem decode_fields {i : Instr} {n : Nat} (hslot : i.slot < 65536)
    (hn : (opcodeOf i).1 + (opcodeOf i).2 * 256 + i.slot * 65536 = n) : decode (BitVec.ofNat 32 n) = .ok i :=
  hn ▸ decodeOfEncodeIsTheCommand i (decide_eq_true hslot)

/-- Settles O30: the words are those of `encode`, and `Buffer.write` changes one slot. -/
theorem writeWordStoresArg : Obligations.WriteWordStoresArg := by
  refine ⟨fun i hi => ?_, fun b i instr hinstr s => ?_⟩
  · exact ⟨decode_fields hi (by simp [opcodeOf, Instr.slot]), decode_fields hi (by simp [opcodeOf, Instr.slot])⟩
  · obtain ⟨hexec, hdepth⟩ : exec instr s = s.conclude (writeSlot b i s) ∧ s.depth b = s.params.depth := by
      obtain ⟨rfl, rfl⟩ | ⟨rfl, rfl⟩ := hinstr <;> exact ⟨rfl, rfl⟩
    rw [hexec, ← hdepth]
    refine ⟨fun hi => ⟨(s.buf b).write i s.argLatch, ?_, fun j => Buffer.read_write ..⟩, fun hi => ?_⟩
    · rw [writeSlot_of_lt hi, State.conclude_ok]
    · rw [writeSlot_of_le hi, s.conclude_error (by decide)]

/-- Settles O31: the words are those of `encode`, and `readSlot` answers by whether the slot exists. -/
theorem readWordGivesTheSlot : Obligations.ReadWordGivesTheSlot := by
  refine ⟨fun i hi => ?_, fun b i instr hinstr s => ?_⟩
  · exact ⟨decode_fields hi (by simp [opcodeOf, Instr.slot]), decode_fields hi (by simp [opcodeOf, Instr.slot]),
      decode_fields hi (by simp [opcodeOf, Instr.slot])⟩
  · have hexec : exec instr s = s.conclude (readSlot b i s) := by
      obtain ⟨rfl, rfl⟩ | ⟨rfl, rfl⟩ | ⟨rfl, rfl⟩ := hinstr <;> rfl
    rw [hexec, ← s.depth_eq_ite b]
    refine ⟨fun hi => ?_, fun hi => ?_⟩
    · rw [readSlot_of_lt hi]
      rfl
    · rw [readSlot_of_le hi, s.conclude_error (by decide)]

/-- A READ_WORD that completed without a fault, run again where it ended, changes nothing more (R126). -/
theorem conclude_readSlot_again {b : Buf} {i : Nat} {t : State} (h : s.conclude (readSlot b i s) = .next t)
    (hcode : t.status.code = .ok) : t.conclude (readSlot b i t) = .next t := by
  obtain ⟨u, hu, rfl⟩ | ⟨c, hc, rfl⟩ := State.conclude_cases h
  · obtain ⟨hi, rfl⟩ := readSlot_eq_ok hu
    have hi' : i < ((s.setResult ((s.buf b).read b i)).complete .ok).depth b := by cases b <;> exact hi
    rw [readSlot_of_lt hi']
    cases b <;> rfl
  · have hok : c = .ok := hcode
    exact absurd (hok ▸ hc) (readSlot_ne_ok b i s)

/-- Settles O32: the second read leaves the state as the first one left it. -/
theorem rereadingASlotGivesTheSameValue : Obligations.RereadingASlotGivesTheSameValue := by
  intro i instr hinstr s t h hcode
  obtain ⟨b, hexec⟩ : ∃ b, ∀ s, exec instr s = s.conclude (readSlot b i s) := by
    simp only [List.mem_cons, List.not_mem_nil, or_false] at hinstr
    obtain rfl | rfl | rfl := hinstr
    · exact ⟨.A, fun _ => rfl⟩
    · exact ⟨.B, fun _ => rfl⟩
    · exact ⟨.R, fun _ => rfl⟩
  exact ⟨t, (hexec t).trans (conclude_readSlot_again (hexec s ▸ h) hcode), hcode, rfl⟩

/-! ### MOVE_R -/

section
variable (d : Buf)

theorem moveResult_of_badLength (h : ¬ (1 ≤ s.len .R ∧ s.len .R ≤ s.depth .R)) :
    moveResult d s = .error .length := by
  rw [← s.lengthOk_iff, Bool.not_eq_true] at h
  simp [moveResult, h]

theorem moveResult_of_badWords (hl : 1 ≤ s.len .R ∧ s.len .R ≤ s.depth .R) (h : ¬ WordsOk (s.words .R)) :
    moveResult d s = .error .malformed := by
  rw [← s.lengthOk_iff] at hl
  rw [← s.runsOk_iff, Bool.not_eq_true] at h
  simp [moveResult, hl, h]

/-- MOVE_R of a well-formed R, the only R it meets after reset (R127, R128): CAPACITY, or the copy. -/
theorem moveResult_of_wellFormed (h : s.wellFormed .R = true) :
    moveResult d s = if s.params.depth < s.len .R then .error .capacity else .ok (s.storeBitmap d (s.words .R)) := by
  rw [State.wellFormed, Bool.and_eq_true] at h
  obtain ⟨hl, hr⟩ := h
  simp [moveResult, hl, hr]

end

/-- Settles O27: the invariant has R well-formed, so only the CAPACITY check is left. -/
theorem moveRFaultsOnlyCapacity : Obligations.MoveRFaultsOnlyCapacity := by
  intro s t hs h
  obtain ⟨d, hd⟩ : ∃ d, s.conclude (moveResult d s) = .next t := h.elim (⟨.A, ·⟩) (⟨.B, ·⟩)
  rw [moveResult_of_wellFormed d hs.resultWellFormed] at hd
  split at hd <;> cases hd
  · exact .inr rfl
  · exact .inl rfl

/-- Settles O33: the checks of `moveResult` in their order, then `Store` of R's words, whose number is R's length. -/
theorem moveRCopiesTheResult : Obligations.MoveRCopiesTheResult := by
  refine ⟨⟨rfl, rfl⟩, fun d instr hinstr s => ?_⟩
  have hexec : exec instr s = s.conclude (moveResult d s) := by
    obtain ⟨rfl, rfl⟩ | ⟨rfl, rfl⟩ := hinstr <;> rfl
  rw [hexec]
  refine ⟨fun hl => ?_, fun hl hw => ?_, fun hl hw (hn : s.params.depth < s.len .R) => ?_,
    fun ⟨hl, (hn : s.len .R ≤ s.params.depth)⟩ hw => ?_⟩
  · rw [moveResult_of_badLength d hl, s.conclude_error (by decide)]
  · rw [moveResult_of_badWords d hl hw, s.conclude_error (by decide)]
  · rw [moveResult_of_wellFormed d ((s.wellFormed_iff .R).2 ⟨hl, hw⟩), if_pos hn, s.conclude_error (by decide)]
  · have hwf := (s.wellFormed_iff .R).2 ⟨⟨hl, hn.trans (s.params_depth_le .R)⟩, hw⟩
    have hlen := State.wellFormed_length hwf
    rw [moveResult_of_wellFormed d hwf, if_neg hn.not_gt]
    exact ⟨answers_storeBitmap d s _ (hlen ▸ Buffer.len_lt .R s.bufR), hlen⟩

end Sys2Proof.Machine
end

section
/-! SUPPORT. INSERT as a command: its checks, its answer once they have passed, and its words in each case of the
covering word (42_insert.md). -/

namespace Sys2Proof.Machine

variable {wd : Width}

/-! ### The words of each case -/

/-- A literal that the bit does not fill keeps its place (R146). -/
theorem insertLiteral_of_ne {before after : List (Word wd)} {w : Word wd} {k : Nat}
    (h : w ||| bitWord wd k ≠ allOnes wd) : insertLiteral before w after k = before ++ (w ||| bitWord wd k) :: after :=
  if_pos h

/-- The words of a collapse from the new all-ones run on: `n` units with what comes before it, fused with what comes
after it (R148). -/
def collapsed (n : Nat) (after : List (Word wd)) : List (Word wd) :=
  mkRun true (fuseFollowing n after).1 :: (fuseFollowing n after).2

/-- A literal that the bit fills becomes an all-ones run, fused on its two sides (R147, R148). -/
theorem insertLiteral_of_full {before after front : List (Word wd)} {w : Word wd} {k n : Nat}
    (h : w ||| bitWord wd k = allOnes wd) (hleft : fusePreceding before = (front, n)) :
    insertLiteral before w after k = front ++ collapsed n after := by
  simp [insertLiteral, collapsed, h, hleft]

section
variable {before after : List (Word wd)} {n m : Nat}

/-- With no all-ones run before it, the new run starts at one unit (R147). -/
theorem fusePreceding_of_bare (h : ∀ v ∈ before.getLast?, ¬ (isRun v = true ∧ runOnes v = true)) :
    fusePreceding before = (before, 1) := by
  obtain ⟨e, -⟩ | ⟨rest, v, rfl, hr, ho, -⟩ := fusePreceding_cases before
  · exact e
  · exact absurd ⟨hr, ho⟩ (h v (by simp))

/-- An all-ones run before the new one takes it in (R147). -/
theorem fusePreceding_ones (h : n + 1 ≤ maxRun wd) : fusePreceding (before ++ [mkRun true n]) = (before, n + 1) := by
  have hn : n ≤ maxRun wd := Nat.le_of_succ_le h
  simp [fusePreceding, isRun_mkRun hn, runOnes_mkRun hn, runLen_mkRun hn, h]

/-- With no all-ones run after it, the new run stays as long as it is (R148). -/
theorem collapsed_of_bare (h : ∀ v ∈ after.head?, ¬ (isRun v = true ∧ runOnes v = true)) :
    collapsed n after = mkRun true n :: after := by
  obtain ⟨e, -⟩ | ⟨v, rest, rfl, hr, ho, -⟩ := fuseFollowing_cases n after
  · rw [collapsed, e]
  · exact absurd ⟨hr, ho⟩ (h v (by simp))

/-- An all-ones run after the new one goes into it unless the sum passes MAXRUN (R148, R150). -/
theorem collapsed_ones (h : m ≤ maxRun wd) :
    collapsed n (mkRun true m :: after)
      = (if n + m ≤ maxRun wd then [mkRun true (n + m)] else [mkRun true n, mkRun true m]) ++ after := by
  simp only [collapsed, fuseFollowing, isRun_mkRun h, runOnes_mkRun h, runLen_mkRun h, Bool.true_and, decide_eq_true_eq]
  split <;> rfl

end

/-- The collapse takes one word at most besides those after it (R148). -/
theorem length_collapsed_le (n : Nat) (after : List (Word wd)) : (collapsed n after).length ≤ after.length + 1 := by
  obtain ⟨e, -⟩ | ⟨v, rest, rfl, -, -, -, e⟩ := fuseFollowing_cases n after
  · simp [collapsed, e]
  · simp [collapsed, e]

/-- Setting a literal's bit never takes another word (R146 to R148). -/
theorem length_insertLiteral_le (before : List (Word wd)) (w : Word wd) (after : List (Word wd)) (k : Nat) :
    (insertLiteral before w after k).length ≤ (before ++ w :: after).length := by
  by_cases h : w ||| bitWord wd k = allOnes wd
  · obtain ⟨e, -⟩ | ⟨rest, v, rfl, -, -, -, e⟩ := fusePreceding_cases before
    · rw [insertLiteral_of_full h e]
      simpa using length_collapsed_le 1 after
    · have := length_collapsed_le (runLen v + 1) after
      rw [insertLiteral_of_full h e]
      simp only [List.length_append, List.length_cons, List.length_nil]
      omega
  · simp [insertLiteral_of_ne h]

/-- No gap leaves the words as they are (R153). -/
theorem appendGap_zero (ws : List (Word wd)) : appendGap ws 0 = ws := by
  obtain ⟨e, -⟩ | ⟨rest, v, -, -, -, h, -⟩ := appendGap_cases ws (Nat.zero_le (maxRun wd))
  · rw [e, zeroRun, if_pos rfl, List.append_nil]
  · omega

section
variable {gap : Nat} (hg : 1 ≤ gap)
include hg

/-- After words that do not end in an all-zero run, the gap is a run of its own (R153, R155). -/
theorem appendGap_of_bare {ws : List (Word wd)} (hle : gap ≤ maxRun wd)
    (h : ∀ v ∈ ws.getLast?, ¬ (isRun v = true ∧ runOnes v = false)) : appendGap ws gap = ws ++ [mkRun false gap] := by
  obtain ⟨e, -⟩ | ⟨rest, v, rfl, hr, ho, -⟩ := appendGap_cases ws hle
  · rw [e, zeroRun, if_neg (Nat.ne_of_gt hg)]
  · exact absurd ⟨hr, ho⟩ (h v (by simp))

/-- A trailing all-zero run takes the gap in (R154). -/
theorem appendGap_zeros {front : List (Word wd)} {n : Nat} (h : n + gap ≤ maxRun wd) :
    appendGap (front ++ [mkRun false n]) gap = front ++ [mkRun false (n + gap)] := by
  have hn : n ≤ maxRun wd := Nat.le_of_add_right_le h
  have hpos : 0 < gap := hg
  simp [appendGap, isRun_mkRun hn, runOnes_mkRun hn, runLen_mkRun hn, h, hpos]

end

/-- The unit of a valid position is below MAXRUN (R161). -/
theorem unitOf_argPos_lt {s : State} (h : ArgIsPosition s) :
    unitOf s.params.width s.argPos < maxRun s.params.width :=
  (unitOf_le_maxUnit _ (argPos_bounds h).2).trans_lt (maxUnit_lt_maxRun _)

/-! ### The checks -/

section
variable {b : Buf} {s : State}

theorem insertPosition_of_badArg (h : ¬ ArgIsPosition s) : insertPosition b s = .error .invalidArg := by
  rw [← validPos_iff, Bool.not_eq_true] at h
  simp [insertPosition, h]

theorem insertPosition_of_badLength (hp : ArgIsPosition s) (h : ¬ (1 ≤ s.len b ∧ s.len b ≤ s.depth b)) :
    insertPosition b s = .error .length := by
  rw [← s.lengthOk_iff, Bool.not_eq_true] at h
  simp [insertPosition, (validPos_iff s).2 hp, h]

theorem insertPosition_of_badWords (hp : ArgIsPosition s) (hl : 1 ≤ s.len b ∧ s.len b ≤ s.depth b)
    (h : ¬ WordsOk (s.words b)) : insertPosition b s = .error .malformed := by
  rw [← s.runsOk_iff, Bool.not_eq_true] at h
  simp [insertPosition, (validPos_iff s).2 hp, (s.lengthOk_iff b).2 hl, h]

end

/-! ### The command -/

section
variable {b : Buf} {instr : Instr} (hi : b = .A ∧ instr = .insertA ∨ b = .B ∧ instr = .insertB) {s : State}
include hi

theorem exec_insert (s : State) : exec instr s = s.conclude (insertPosition b s) := by
  obtain ⟨rfl, rfl⟩ | ⟨rfl, rfl⟩ := hi <;> rfl

/-- The buffers of INSERT are the two of DEPTH slots (R51). -/
theorem depth_of_insert (s : State) : s.depth b = s.params.depth := by
  obtain ⟨rfl, -⟩ | ⟨rfl, -⟩ := hi <;> rfl

/-- What an INSERT that completes without a fault has checked and leaves (R143). -/
theorem insert_of_ok {t : State} (hok : s.params.Ok) (h : exec instr s = .next t) (hcode : t.status.code = .ok) :
    ArgIsPosition s ∧ WordsOk (s.words b) ∧ 1 + (insertWords (s.words b) s.argPos).length ≤ s.params.depth
      ∧ AnswersBitmap b s (insertWords (s.words b) s.argPos) (.next t) := by
  rw [exec_insert hi] at h
  obtain ⟨u, hu, -⟩ | ⟨c, hc, rfl⟩ := State.conclude_cases h
  · obtain ⟨hp, -, hw, hlen, rfl⟩ := insertPosition_eq_ok hu
    rw [← h, hu]
    exact ⟨hp, hw, depth_of_insert hi s ▸ hlen,
      answers_storeBitmap b s _ (hlen.trans_lt (s.depth_lt hok b))⟩
  · obtain rfl : c = .ok := hcode
    exact absurd hc (insertPosition_ne_ok b s)

section
variable (hok : s.params.Ok) (hp : ArgIsPosition s) (h1 : 1 ≤ s.len b) (h2 : s.len b ≤ s.params.depth)
  (hw : WordsOk (s.words b))
include hok hp h1 h2 hw

section
variable {ws : List (Word s.params.width)} (hws : insertWords (s.words b) s.argPos = ws)
include hws

/-- INSERT once its checks have passed: its words, or CAPACITY where they do not fit (R143). -/
theorem insert_answersOrCapacity : AnswersBitmapOrCapacity b s ws (exec instr s) := by
  subst hws
  rw [exec_insert hi, insertPosition_ok hp ⟨h1, h2.trans (s.params_depth_le b)⟩ hw, AnswersBitmapOrCapacity]
  split
  · next hfit =>
    rw [if_neg hfit.not_gt]
    exact answers_storeBitmap b s _ (hfit.trans_lt (s.depth_lt hok b))
  · next hfit => rw [if_pos (Nat.lt_of_not_le hfit), s.conclude_error (by decide)]

/-- INSERT whose words fit cannot fault (R143). -/
theorem insert_answers_of_fits (hfit : 1 + ws.length ≤ s.params.depth) : AnswersBitmap b s ws (exec instr s) := by
  have h := insert_answersOrCapacity hi hok hp h1 h2 hw hws
  rwa [AnswersBitmapOrCapacity, depth_of_insert hi, if_pos hfit] at h

/-- INSERT that adds no word cannot fault: the buffer's own words fit (R109). -/
theorem insert_answers (hlen : ws.length ≤ (s.words b).length) : AnswersBitmap b s ws (exec instr s) := by
  refine insert_answers_of_fits hi hok hp h1 h2 hw hws ?_
  rw [s.length_words] at hlen
  omega

end

section
variable {before after : List (Word s.params.width)} {w : Word s.params.width}
  (hsplit : s.words b = before ++ w :: after) (hlit : isRun w = false)
  (hunit : totalUnits before + 1 = unitOf s.params.width s.argPos)
include hsplit hlit hunit

/-- INSERT into a literal cannot fault (R146 to R148). -/
theorem insert_answersLiteral :
    AnswersBitmap b s (insertLiteral before w after (bitOf s.params.width s.argPos)) (exec instr s) := by
  refine insert_answers hi hok hp h1 h2 hw ?_ (hsplit ▸ length_insertLiteral_le before w after _)
  rw [hsplit, insertWords_literal hlit hunit]

/-- INSERT that fills a literal collapses it (R147, R148). -/
theorem insert_answersCollapsed {front : List (Word s.params.width)} {k : Nat}
    (hfull : w ||| bitWord s.params.width (bitOf s.params.width s.argPos) = allOnes s.params.width)
    (hleft : fusePreceding before = (front, k)) : AnswersBitmap b s (front ++ collapsed k after) (exec instr s) :=
  insertLiteral_of_full hfull hleft ▸ insert_answersLiteral hi hok hp h1 h2 hw hsplit hlit hunit

end

end

end

/-! ### The statements -/

/-- Settles O42: the words INSERT leaves are `insertWords`, whose form and position set Laws/ proves. -/
theorem insertAddsThePosition : Obligations.InsertAddsThePosition := by
  intro b instr hi s t hok h hcode
  obtain ⟨hp, hw, hlen, hans⟩ := insert_of_ok hi hok h hcode
  obtain ⟨hp1, hp2⟩ := argPos_bounds hp
  exact ⟨_, hans, .insertWords hp1 hp2 hw, hlen, Pos_insertWords _ hp1⟩

/-- Settles O43: INSERT adds at most two words, and there is room for them. -/
theorem insertWithRoomCompletes : Obligations.InsertWithRoomCompletes := by
  intro b instr hi s hok hp h1 hroom hw
  obtain ⟨hp1, hp2⟩ := argPos_bounds hp
  obtain ⟨hle, hge⟩ := length_insertWords (ws := s.words b) hp1 hp2
  rw [s.length_words] at hle hge
  exact ⟨_, insert_answers_of_fits hi hok hp h1 (by omega) hw rfl (by omega), Pos_insertWords _ hp1, by omega,
    by omega⟩

/-- Settles O44, by `canonical_insertWords`. -/
theorem insertKeepsCanonicalWords : Obligations.InsertKeepsCanonicalWords := by
  intro b instr hi s t hok hcan h hcode
  obtain ⟨hp, -, -, hans⟩ := insert_of_ok hi hok h hcode
  obtain ⟨hp1, hp2⟩ := argPos_bounds hp
  exact ⟨_, hans, canonical_insertWords hp1 hp2 hcan⟩

/-- Settles O45: the words stay, so they fit. -/
theorem insertOfAHeldPositionChangesNoWord : Obligations.InsertOfAHeldPositionChangesNoWord := by
  intro b instr hi s hok hp h1 h2 hcan hheld
  exact insert_answers hi hok hp h1 h2 hcan.1 (insertWords_present (argPos_bounds hp).1 hcan.words hheld) le_rfl

/-- Settles O46, by `insertLiteral_of_ne`. -/
theorem insertSetsABitOfALiteral : Obligations.InsertSetsABitOfALiteral := by
  intro b instr hi s before after w hok hp h1 h2 hw hsplit hlit hunit hne
  rw [← insertLiteral_of_ne hne]
  exact insert_answersLiteral hi hok hp h1 h2 hw hsplit hlit hunit

/-- Settles O47: the run before is a case of `fusePreceding`, the run after a case of `collapsed`. The fuse with the run
before always fits, since the target's unit is below MAXRUN (R161). -/
theorem insertCollapsesAFullLiteral : Obligations.InsertCollapsesAFullLiteral := by
  intro b instr hi s before after w n m one bare fused hok hp h1 h2 hw hlit hfull _ hn _ hm
  have hbefore (hunit : totalUnits before + n + 1 = unitOf s.params.width s.argPos) :
      totalUnits (before ++ [one n]) + 1 = unitOf s.params.width s.argPos
        ∧ fusePreceding (before ++ [one n]) = (before, n + 1) := by
    have hlt := unitOf_argPos_lt hp
    exact ⟨by simpa [one, span_mkRun hn] using hunit, fusePreceding_ones (by omega)⟩
  refine ⟨fun hsplit hunit hb ha => ?_, fun hsplit hunit ha => ?_, fun hsplit hunit hb => ?_, fun hsplit hunit => ?_⟩
  · rw [← collapsed_of_bare ha]
    exact insert_answersCollapsed hi hok hp h1 h2 hw hsplit hlit hunit hfull (fusePreceding_of_bare hb)
  · obtain ⟨hunit, hleft⟩ := hbefore hunit
    rw [← collapsed_of_bare ha]
    exact insert_answersCollapsed hi hok hp h1 h2 hw (by simp [hsplit]) hlit hunit hfull hleft
  · rw [List.append_assoc, ← collapsed_ones hm]
    exact insert_answersCollapsed hi hok hp h1 h2 hw hsplit hlit hunit hfull (fusePreceding_of_bare hb)
  · obtain ⟨hunit, hleft⟩ := hbefore hunit
    rw [List.append_assoc, ← collapsed_ones hm]
    exact insert_answersCollapsed hi hok hp h1 h2 hw (by simp [hsplit, one]) hlit hunit hfull hleft

/-- Settles O48, by `insertWords_ones`. -/
theorem insertInAnAllOnesRunChangesNoWord : Obligations.InsertInAnAllOnesRunChangesNoWord := by
  intro b instr hi s before after w hok hp h1 h2 hw hsplit hrun hones hlo hhi
  refine insert_answers hi hok hp h1 h2 hw ?_ le_rfl
  rw [hsplit, insertWords_ones hrun hones hlo hhi]

/-- Settles O49, by `insertWords_zeros`. -/
theorem insertSplitsAnAllZeroRun : Obligations.InsertSplitsAnAllZeroRun := by
  intro b instr hi s before after w t hok hp h1 h2 hw hsplit hrun hzeros hunit ht
  refine insert_answersOrCapacity hi hok hp h1 h2 hw ?_
  have htarget : unitOf s.params.width s.argPos - totalUnits before - 1 = t := by omega
  rw [hsplit, insertWords_zeros hrun hzeros (by omega) (by omega), htarget]
  simp [splitRun, zeroRun]

/-- Settles O50: the three cases of `appendGap` that a valid position can meet (R155). -/
theorem insertAppends : Obligations.InsertAppends := by
  intro b instr hi s gap n front bit hok hp h1 h2 hw hunit
  have hlt := unitOf_argPos_lt hp
  have hgap : unitOf s.params.width s.argPos - 1 - totalUnits (s.words b) = gap := by omega
  have happend : insertWords (s.words b) s.argPos = appendGap (s.words b) gap ++ [bit] := by
    rw [insertWords_append (by omega), hgap, appendUnit]
  refine ⟨fun hg => ?_, fun hg hbare => ?_, fun hg _ hn hfront => ?_⟩ <;>
    refine insert_answersOrCapacity hi hok hp h1 h2 hw (happend.trans ?_)
  · rw [hg, appendGap_zero]
  · rw [appendGap_of_bare hg (by omega) hbare, List.append_assoc, List.singleton_append]
  · have hunits : totalUnits (s.words b) = totalUnits front + n := by simp [hfront, span_mkRun hn]
    rw [hfront, appendGap_zeros hg (by omega), List.append_assoc, List.singleton_append]

/-- Settles O41: the checks of `insertPosition` in their order. -/
theorem insertChecksArgumentThenBuffer : Obligations.InsertChecksArgumentThenBuffer := by
  intro b instr hi s
  rw [exec_insert hi, ← depth_of_insert hi s]
  refine ⟨fun hp => ?_, fun hp hl => ?_, fun hp hl hw => ?_⟩
  · rw [insertPosition_of_badArg hp, s.conclude_error (by decide)]
  · rw [insertPosition_of_badLength hp hl, s.conclude_error (by decide)]
  · rw [insertPosition_of_badWords hp hl hw, s.conclude_error (by decide)]

end Sys2Proof.Machine
end

section
/-! SUPPORT. The merges as commands: their checks, what they leave in R once these have passed, and the words of R for
empty and for swapped operands (43_merge.md). -/

namespace Sys2Proof.Machine

variable {wd : Width}

/-! ### The trim -/

/-- One all-zero run is trimmed (R183). -/
theorem trim_loneZeros {w : Word wd} (hr : isRun w = true) (hz : runOnes w = false) : trim [w] = [] := by
  simp [trim, hr, hz]

/-- "No other trailing zero run is trimmed" (R183). -/
theorem trim_of_not_loneZeros {ws : List (Word wd)}
    (h : ∀ w, ws = [w] → ¬ (isRun w = true ∧ runOnes w = false)) : trim ws = ws := by
  rcases ws with _ | ⟨w, _ | ⟨v, ws⟩⟩
  · rfl
  · simpa [trim] using h w rfl
  · rfl

/-- An AND with an empty operand, on either side, has no words (R194). -/
theorem mergeWords_and_of_empty {wsA wsB : List (Word wd)} (ha : WordsOk wsA) (hb : WordsOk wsB)
    (h : wsA = [] ∨ wsB = []) : mergeWords .and wsA wsB = some [] := by
  obtain rfl | rfl := h
  · rw [mergeWords_comm .and ha hb, mergeWords_and_nil]
  · exact mergeWords_and_nil wsA

/-! ### The checks -/

section
variable {op : MergeOp} {s : State}

theorem mergeBuffers_of_badLength (h : ¬ (s.lengthOk .A = true ∧ s.lengthOk .B = true)) :
    mergeBuffers op s = .error .length := by
  cases hA : s.lengthOk .A with
  | false => simp [mergeBuffers, hA]
  | true =>
    have hB : s.lengthOk .B = false := by simpa [hA] using h
    simp [mergeBuffers, hA, hB]

theorem mergeBuffers_of_badWords (hl : s.lengthOk .A = true ∧ s.lengthOk .B = true)
    (h : ¬ (s.runsOk .A = true ∧ s.runsOk .B = true)) : mergeBuffers op s = .error .malformed := by
  obtain ⟨hlA, hlB⟩ := hl
  cases hA : s.runsOk .A with
  | false => simp [mergeBuffers, hlA, hlB, hA]
  | true =>
    have hB : s.runsOk .B = false := by simpa [hA] using h
    simp [mergeBuffers, hlA, hlB, hA, hB]

end

/-! ### The commands -/

/-- A buffer of length 1 is the empty bitmap (R74). -/
theorem State.words_of_len_one {s : State} {b : Buf} (h : s.len b = 1) : s.words b = [] :=
  List.eq_nil_of_length_eq_zero (by rw [s.length_words, h])

/-- An outcome that answers a bitmap answers no other. -/
theorem AnswersBitmap.unique {b : Buf} {s : State} {ws ws' : List (Word s.params.width)}
    {o : Host.Outcome State Fault Refusal} (h : AnswersBitmap b s ws o) (h' : AnswersBitmap b s ws' o) : ws = ws' := by
  obtain ⟨x, rfl, -, rfl⟩ := h
  obtain ⟨y, ho, -, rfl⟩ := h'
  have hxy : x = y := by
    cases b with
    | A | B | R =>
      injection ho with ho
      injection ho
  rw [hxy]

/-- Each merge command has its operation (R185, R186). -/
theorem exists_mergeOp {instr : Instr} (h : instr = .mergeOr ∨ instr = .mergeAnd) :
    ∃ op : MergeOp, op = .or ∧ instr = .mergeOr ∨ op = .and ∧ instr = .mergeAnd := by
  obtain rfl | rfl := h
  · exact ⟨.or, .inl ⟨rfl, rfl⟩⟩
  · exact ⟨.and, .inr ⟨rfl, rfl⟩⟩

section
variable {op : MergeOp} {instr : Instr} (hi : op = .or ∧ instr = .mergeOr ∨ op = .and ∧ instr = .mergeAnd)
include hi

theorem exec_merge (s : State) : exec instr s = s.conclude (mergeBuffers op s) := by
  obtain ⟨rfl, rfl⟩ | ⟨rfl, rfl⟩ := hi <;> rfl

variable {s : State} (hok : s.params.Ok) (hA : s.wellFormed .A = true) (hB : s.wellFormed .B = true)
include hok hA hB

/-- A merge of well-formed operands cannot fault: its output takes fewer slots than both operands together (R190), so
it fits R. -/
theorem merge_completes :
    ∃ ws, mergeWords op (s.words .A) (s.words .B) = some ws ∧ AnswersBitmap .R s ws (exec instr s) ∧ WordsOk ws
      ∧ 1 + ws.length + 1 ≤ s.len .A + s.len .B := by
  have hlenA := State.wellFormed_length hA
  have hlenB := State.wellFormed_length hB
  obtain ⟨⟨-, hdA⟩, hwA⟩ := (s.wellFormed_iff .A).1 hA
  obtain ⟨⟨-, hdB⟩, hwB⟩ := (s.wellFormed_iff .B).1 hB
  obtain ⟨ws, hws, hmerge⟩ := mergeBuffers_ok op hA hB
  obtain ⟨ws', hws', hwf, hlen, -⟩ := mergeWords_spec op hwA hwB
  obtain rfl : ws = ws' := Option.some.inj (hws.symm.trans hws')
  have hfits : 1 + ws.length ≤ s.depth .R := by
    rw [State.depth_A] at hdA
    rw [State.depth_B] at hdB
    rw [State.depth_R]
    omega
  refine ⟨ws, hws, ?_, hwf, by omega⟩
  rw [exec_merge hi, hmerge]
  exact answers_storeBitmap .R s ws (hfits.trans_lt (s.depth_lt hok .R))

/-- The words of R are those of `mergeWords`. -/
theorem merge_answers {ws : List (Word s.params.width)} (hws : mergeWords op (s.words .A) (s.words .B) = some ws) :
    AnswersBitmap .R s ws (exec instr s) := by
  obtain ⟨ws', hws', hans, -⟩ := merge_completes hi hok hA hB
  rwa [Option.some.inj (hws.symm.trans hws')]

/-- Operands whose words are swapped give the same words of R (R194). -/
theorem merge_answers_swapped {x y : Buffer s.params.width} {ws : List (Word s.params.width)}
    (hxl : x.len .A = s.len .B) (hxw : x.words .A = s.words .B) (hyl : y.len .B = s.len .A)
    (hyw : y.words .B = s.words .A) (h : AnswersBitmap .R s ws (exec instr s)) :
    AnswersBitmap .R { s with bufA := x, bufB := y } ws (exec instr { s with bufA := x, bufB := y }) := by
  obtain ⟨ws', hws, hans, -⟩ := merge_completes hi hok hA hB
  obtain rfl := h.unique hans
  obtain ⟨hlA, hwA⟩ := (s.wellFormed_iff .A).1 hA
  obtain ⟨hlB, hwB⟩ := (s.wellFormed_iff .B).1 hB
  have hlA' : ({ s with bufA := x, bufB := y } : State).len .A = s.len .B := hxl
  have hlB' : ({ s with bufA := x, bufB := y } : State).len .B = s.len .A := hyl
  have hwA' : ({ s with bufA := x, bufB := y } : State).words .A = s.words .B := hxw
  have hwB' : ({ s with bufA := x, bufB := y } : State).words .B = s.words .A := hyw
  refine merge_answers hi (s := { s with bufA := x, bufB := y }) hok ?_ ?_ ?_
  · rw [State.wellFormed_iff, hlA', hwA']
    exact ⟨hlB, hwB⟩
  · rw [State.wellFormed_iff, hlB', hwB']
    exact ⟨hlA, hwA⟩
  · rw [hwA', hwB', mergeWords_comm op hwB hwA]
    exact hws

end

/-! ### The statements -/

/-- Settles O52: the position set is that of `Pos_mergeWords` for OR. -/
theorem mergeOrGivesTheUnion : Obligations.MergeOrGivesTheUnion := by
  intro s hok hA hB
  obtain ⟨ws, hws, hans, hwf, hlen⟩ := merge_completes (.inl ⟨rfl, rfl⟩) hok hA hB
  exact ⟨ws, hans, hwf, hlen, Pos_mergeWords .or ((s.wellFormed_iff .A).1 hA).2 ((s.wellFormed_iff .B).1 hB).2 hws⟩

/-- Settles O53: the position set is that of `Pos_mergeWords` for AND. -/
theorem mergeAndGivesTheIntersection : Obligations.MergeAndGivesTheIntersection := by
  intro s hok hA hB
  obtain ⟨ws, hws, hans, hwf, hlen⟩ := merge_completes (.inr ⟨rfl, rfl⟩) hok hA hB
  exact ⟨ws, hans, hwf, hlen, Pos_mergeWords .and ((s.wellFormed_iff .A).1 hA).2 ((s.wellFormed_iff .B).1 hB).2 hws⟩

/-- Settles O54: the engine emits a sequence the rules give (`mergeWords_coScan`), and they give one only
(`CoScan.unique`). -/
theorem mergeWordsFollowTheRules : Obligations.MergeWordsFollowTheRules := by
  intro op instr hi s hok hA hB
  obtain ⟨zs, hscan, hws⟩ :=
    mergeWords_coScan op ((s.wellFormed_iff .A).1 hA).2 ((s.wellFormed_iff .B).1 hB).2
  exact ⟨zs, hscan, fun _ hscan' => hscan'.unique hscan, merge_answers hi hok hA hB hws⟩

/-- Settles O55: an OR with an empty B leaves A's words trimmed, an AND with an empty operand leaves none, and the
merges commute. -/
theorem mergeWordIdentities : Obligations.MergeWordIdentities := by
  refine ⟨fun s hok hA hcan hlen => ?_, fun s hok hA hB hempty => ?_, ?_⟩
  · have hB : s.wellFormed .B = true := State.wellFormed_of_len_one hlen (State.one_le_depth hok .B)
    have hans : AnswersBitmap .R s (trim (s.words .A)) (exec .mergeOr s) :=
      merge_answers (.inl ⟨rfl, rfl⟩) hok hA hB (by rw [State.words_of_len_one hlen, mergeWords_or_nil hcan])
    refine ⟨fun w hw hr hz => ?_, fun hlone => ?_⟩
    · rwa [hw, trim_loneZeros hr hz] at hans
    · rwa [trim_of_not_loneZeros hlone] at hans
  · exact merge_answers (.inr ⟨rfl, rfl⟩) hok hA hB (mergeWords_and_of_empty ((s.wellFormed_iff .A).1 hA).2
      ((s.wellFormed_iff .B).1 hB).2 (hempty.imp State.words_of_len_one State.words_of_len_one))
  · intro instr hinstr s x y ws hok hA hB hxl hxw hyl hyw hans
    obtain ⟨op, hi⟩ := exists_mergeOp hinstr
    exact merge_answers_swapped hi hok hA hB hxl hxw hyl hyw hans

/-- Settles O56, by `canonical_mergeWords`. -/
theorem mergeKeepsCanonicalWords : Obligations.MergeKeepsCanonicalWords := by
  intro instr hinstr s hok hA hB hcanA hcanB
  obtain ⟨op, hi⟩ := exists_mergeOp hinstr
  obtain ⟨ws, hws, hans, -⟩ := merge_completes hi hok hA hB
  exact ⟨ws, hans, canonical_mergeWords op hcanA hcanB hws⟩

/-- Settles O51: the checks of `mergeBuffers` in their order. -/
theorem mergeChecksItsOperands : Obligations.MergeChecksItsOperands := by
  intro instr hinstr s lengths
  obtain ⟨op, hi⟩ := exists_mergeOp hinstr
  have hlengths : lengths ↔ s.lengthOk .A = true ∧ s.lengthOk .B = true := by
    rw [s.lengthOk_iff, s.lengthOk_iff]
    rfl
  rw [exec_merge hi, hlengths, ← s.runsOk_iff .A, ← s.runsOk_iff .B]
  refine ⟨fun hl => ?_, fun hl hw => ?_⟩
  · rw [mergeBuffers_of_badLength hl, s.conclude_error (by decide)]
  · rw [mergeBuffers_of_badWords hl hw, s.conclude_error (by decide)]

end Sys2Proof.Machine
end

section
/-! SUPPORT. The exceptions of the block: what a fault leaves as it was, the fault log along the steps, and the second
host (R209, R210, R214, R221). -/

namespace Sys2Proof.Machine

section
variable {s t : State}

/-! ### What a fault writes -/

/-- Whatever a command writes by its row of R39, it writes nothing of it where it faults. -/
theorem State.afterWrites_of_fault {c : Code} (hc : c ≠ .ok) (writesResult : Bool) (written : Option Buf) (v x) :
    s.afterWrites writesResult written v x c = s.afterFault c :=
  (complete_fault_eq_afterWrites hc writesResult written v x).symm.trans (s.complete_fault hc)

/-- Settles O9: the writes of the command's row of R39 are void under a code other than OK. -/
theorem faultWritesOnlyStatus : Obligations.FaultWritesOnlyStatus := by
  intro i s t h hcode
  obtain ⟨v, x, c, hc⟩ := exec_answersWrites i s
  cases hc.symm.trans h
  exact State.afterWrites_of_fault hcode _ _ v x

/-! ### The fault log -/

/-- A command logs its own code where it faults, and nothing where it does not (R210, R214). -/
theorem exec_faultLog {i : Instr} (h : exec i s = .next t) :
    t.faultLog = s.faultLog ∨ ∃ c, c ≠ .ok ∧ t.faultLog = s.faultLog ++ [c] := by
  obtain ⟨v, x, c, hc⟩ := exec_answersWrites i s
  cases hc.symm.trans h
  by_cases hok : c = .ok
  · exact .inl (if_pos hok)
  · exact .inr ⟨c, hok, if_neg hok⟩

@[simp] theorem State.writeReg_faultLog (s : State) (r : HostReg) (v : BitVec 64) :
    (s.writeReg r v).faultLog = s.faultLog := by
  obtain ⟨a, st, c, l, hw⟩ := s.writeReg_frame r v
  rw [hw]

/-- No turn of the host writes the fault log, the reset event included (R214). -/
theorem hostStep_faultLog (h : hostStep s = .next t) : t.faultLog = s.faultLog := by
  obtain rfl | ⟨rest, r, v, e, rfl⟩ | ⟨rest, e, rfl⟩ | ⟨rest, -, rfl⟩ := hostStep_cases h
  · rfl
  · exact State.writeReg_faultLog _ r v
  · rfl
  · rfl

/-- Settles O26, by the kinds of step: only a command, legal or not, reports a code. -/
theorem faultLogOnlyGrows : Obligations.FaultLogOnlyGrows := by
  intro s t h
  obtain ⟨-, rfl | ⟨i, hi⟩ | rfl | hh⟩ := step_cases h
  · exact .inl rfl
  · exact exec_faultLog (s := s.takeTurn) hi
  · exact .inr ⟨.illegal, by decide, rfl⟩
  · exact .inl (hostStep_faultLog (s := s.takeTurn) hh)

end

/-! ### The second host -/

/-- Settles O18: the host's turn reaches the other host's action, which has no meaning. -/
theorem secondHostIsRefused : Obligations.SecondHostIsRefused := by
  intro s rest hm hh
  have hh' : s.takeTurn.host = .otherHost :: rest := hh
  rw [step_host hm, hostStep, hh']

end Sys2Proof.Machine
end

section
/-! SUPPORT. The engine's turn on an accepted command, and the reset event (R34, R230, R231, R236). -/

namespace Sys2Proof.Machine

/-- Settles O7: a legal word's command ends by `exec_idle`, an illegal word's in ILLEGAL. -/
theorem acceptedCommandCompletes : Obligations.AcceptedCommandCompletes := by
  intro s hm
  obtain ⟨t, ht, hidle, -⟩ := step_engine_idle hm
  exact ⟨t, ht, hidle⟩

/-- Settles O5: of the engine's turn by `step_engine`, the branch of a legal word. -/
theorem stepRunsTheLatchedCommand : Obligations.StepRunsTheLatchedCommand := by
  intro s i hm hd
  rw [step_engine hm, hd]
  rfl

section
variable {s : State} {rest : List HostAction}

/-- The host's turn at a reset event (R230). -/
theorem step_resetEvent (hm : HostMoves s) (hh : s.host = .reset :: rest) :
    step s = .next ((State.resetEvent { s.takeTurn with host := rest }).record .wasReset) := by
  have hh' : s.takeTurn.host = .reset :: rest := hh
  rw [step_host hm, hostStep, hh']

end

/-- Settles O21: the reset event stores the empty bitmap in each buffer, whose slot 0 is then its length, 1. -/
theorem resetEventGivesTheResetState : Obligations.ResetEventGivesTheResetState :=
  fun s _ hm hh => ⟨s.bufA.store [], s.bufB.store [], s.bufR.store [], step_resetEvent hm hh,
    s.bufA.read_store_zero .A [], s.bufB.read_store_zero .B [], s.bufR.read_store_zero .R []⟩

end Sys2Proof.Machine
end
